-- ==== Sys2Proof/Word.lean ====
section
/-! DEFINITION. The values the ports carry: the 64-bit word, the 128-bit value, the byte (spec/00_scope.md R5 to R7, spec/10_state.md R21). -/

namespace Sys2Proof

/-- A word: "a 64-bit unsigned integer" (R5, Glossary). -/
abbrev Word := BitVec 64

/-- A Uint128 on a 128-bit port: the vector `{H, L}`, `H` in bits 127:64, `L` in bits 63:0 (R7, R21).
Every one of the 2^128 patterns is a value. -/
abbrev Uint128 := BitVec 128

/-- Eight bits: an operation code (R50) or one character of a text result (R25). -/
abbrev Byte := BitVec 8

end Sys2Proof
end

