-- ==== Sys2Proof/Config.lean ====
section
/-! DEFINITION. What an implementation fixes: the parameters of spec/00_scope.md R5. Its widths (WORD, XLEN, OPW, CNTW, MAXSTR) are the widths of the types in Word.lean and Machine/State.lean. LAT and DEPTH are OPEN there ("named parameters the model takes as arguments"); they are plain data that State holds (`State.lat`, `State.depthPred`) and no step changes, so that a statement about every state is a statement about every implementation. No value of the spec's results is left open, so nothing here is opaque. -/

namespace Sys2Proof.Config

/-- The open parameter LAT as plain data (R5, R157: "any natural number, which may differ between operations and
between implementations, and may depend on the operand values ... but on nothing else"): a table from what a request
reads, a key of type `κ`, to its number of cycles; `base` where the table has no entry, and the first entry where it has
several. Any LAT agrees with some such table on any finite number of requests. [DESIGN CHOICE: log entry 3] -/
structure Latency (κ : Type) where
  base : Nat
  entries : List (κ × Nat)
deriving DecidableEq, Repr

/-- LAT = 0 for every request: the combinational implementation that R152 allows. -/
def Latency.zero {κ : Type} : Latency κ := { base := 0, entries := [] }

end Sys2Proof.Config
end

