-- ==== Sys2Proof/Syntax.lean ====
section
/-! DEFINITION. The twenty operations (spec/30_encoding.md R52), their formats (R51), and the transaction line of the assembler syntax (R59). -/

namespace Sys2Proof

/-- One constructor per row of spec/opcode_table.json. An operation carries no operand: operands are data on
the ports X, Y and CI (R50, R54). -/
inductive Instr
  | zero
  | max
  | eq
  | cmp
  | len
  | clz
  | ctz
  | popcnt
  | rev
  | revb
  | add128
  | add
  | incr
  | decr
  | fmtBin
  | fmtOct
  | fmtDec
  | fmtHexl
  | fmtHexu
  | fmtStr
deriving DecidableEq, Repr

/-- The four formats, which differ only in the operand ports read (R51). -/
inductive Format
  | nullary
  | unary
  | binary
  | ternary
deriving DecidableEq, Repr

/-- How many operands a line of this format has, in the order X, Y, CI (R51, R59). -/
def Format.arity : Format → Nat
  | .nullary => 0
  | .unary => 1
  | .binary => 2
  | .ternary => 3

/-- The format of each operation (R51). -/
def Instr.format : Instr → Format
  | .zero => .nullary
  | .max => .nullary
  | .eq => .binary
  | .cmp => .binary
  | .len => .unary
  | .clz => .unary
  | .ctz => .unary
  | .popcnt => .unary
  | .rev => .unary
  | .revb => .unary
  | .add128 => .ternary
  | .add => .binary
  | .incr => .unary
  | .decr => .unary
  | .fmtBin => .unary
  | .fmtOct => .unary
  | .fmtDec => .unary
  | .fmtHexl => .unary
  | .fmtHexu => .unary
  | .fmtStr => .unary

/-- The result ports a line may name, in the fixed order of R59; `rs` stands for the text `RS[0 .. RSLEN-1]`. -/
inductive ResultPort
  | rv
  | rc
  | rn
  | rf
  | rs
deriving DecidableEq, Repr

/-- Which result ports each operation drives (R53), in the order of R59. -/
def Instr.results : Instr → List ResultPort
  | .zero => [.rv]
  | .max => [.rv]
  | .eq => [.rf]
  | .cmp => [.rf]
  | .len => [.rn]
  | .clz => [.rn]
  | .ctz => [.rn]
  | .popcnt => [.rn]
  | .rev => [.rv]
  | .revb => [.rv]
  | .add128 => [.rv, .rc]
  | .add => [.rv]
  | .incr => [.rv]
  | .decr => [.rv]
  | .fmtBin => [.rs]
  | .fmtOct => [.rs]
  | .fmtDec => [.rs]
  | .fmtHexl => [.rs]
  | .fmtHexu => [.rs]
  | .fmtStr => [.rs]

/-- An operand of a transaction line (R59): a temporary `%n` of the requester, a literal written as one number,
or a literal written as the pair `(H=…, L=…)`. A temporary's name is a number. [DESIGN CHOICE: log entry 10] -/
inductive Operand
  | temp (n : Nat)
  | lit (v : Nat)
  | pair (h l : Nat)
deriving DecidableEq, Repr

/-- A transaction line `<results> = <MNEMONIC> <operands>` (R59). -/
structure Line where
  results : List Nat
  instr : Instr
  operands : List Operand
deriving DecidableEq, Repr

/-- A transaction that a requester issues: one of the twenty operations on a line, or a request with a reserved opcode
and values on X, Y and CI, which names no result since every result port of its response is zero (R56; it has no mnemonic,
and program 5 of spec/95_test_vectors.md writes it by its code). -/
inductive Transaction
  | line (ln : Line)
  | reserved (op : Byte) (x y ci : Operand)
deriving DecidableEq, Repr

end Sys2Proof
end

