-- ==== Sys2Proof/WellFormed.lean ====
section
/-! DEFINITION. When a transaction is well formed (spec/30_encoding.md R55, R59). An `Instr` has no field, so every `Instr` is well formed. -/

namespace Sys2Proof

/-- A literal operand is a Uint128 (R59: "one hexadecimal number of up to 32 digits", or a decimal number, or the
source's pair of words; R21 gives the ranges). -/
def Operand.wf : Operand → Bool
  | .temp _ => true
  | .lit v => decide (v < 2 ^ 128)
  | .pair h l => decide (h < 2 ^ 64) && decide (l < 2 ^ 64)

/-- "With exactly as many entries as the format reads" (R59). -/
def Line.operandsMatch (ln : Line) : Bool :=
  ln.operands.length == ln.instr.format.arity

/-- "Again exactly as many as rule R53 ticks for the operation" (R59). -/
def Line.resultsMatch (ln : Line) : Bool :=
  ln.results.length == ln.instr.results.length

/-- A line a requester may write (R59). -/
def Line.wf (ln : Line) : Bool :=
  ln.operandsMatch && ln.resultsMatch && ln.operands.all Operand.wf

/-- The ranges of the reserved opcodes, each with its first and its last code (R55). -/
def reservedRanges : List (Nat × Nat) :=
  [(0x04, 0x0F), (0x14, 0x1F), (0x22, 0x2F), (0x34, 0x3F), (0x46, 0x4F), (0x50, 0xFF)]

/-- Whether the code lies in one of the ranges of R55. -/
def isReservedCode (op : Byte) : Bool :=
  reservedRanges.any fun r => decide (r.1 ≤ op.toNat) && decide (op.toNat ≤ r.2)

/-- A transaction a requester may write: a line as R59 says, or a reserved opcode with Uint128 operands (R55). -/
def Transaction.wf : Transaction → Bool
  | .line ln => ln.wf
  | .reserved op x y ci => isReservedCode op && x.wf && y.wf && ci.wf

end Sys2Proof
end

