-- ==== Sys2Proof/Decode.lean ====
section
/-! DEFINITION. Operation codes: the decoder, total on any bytes, and after it the encoder (spec/30_encoding.md R50, R52, R55, R58). -/

namespace Sys2Proof

/-- Why the decoder gives no operation. -/
inductive DecodeError
  /-- The code is one of the 236 reserved ones (R55). -/
  | reserved (op : Byte)
  /-- No code at all; a code is always the 8 bits of OP (R58). [DEDUCED: log entry 7] -/
  | missing
  /-- A second code word; a code is never followed or preceded by another (R50). [DEDUCED: log entry 7] -/
  | trailing
deriving DecidableEq, Repr

/-- One row of the opcode table (R52): the operation is selected where `op &&& mask = pattern`. -/
structure OpcodeRow where
  mask : Byte
  pattern : Byte
  instr : Instr
deriving DecidableEq, Repr

/-- Families 0 and 1 of the opcode table (R52). -/
def opcodeRowsA : List OpcodeRow :=
  [ ⟨0xFF#8, 0x00#8, .zero⟩, ⟨0xFF#8, 0x01#8, .max⟩, ⟨0xFF#8, 0x02#8, .eq⟩, ⟨0xFF#8, 0x03#8, .cmp⟩,
    ⟨0xFF#8, 0x10#8, .len⟩, ⟨0xFF#8, 0x11#8, .clz⟩, ⟨0xFF#8, 0x12#8, .ctz⟩, ⟨0xFF#8, 0x13#8, .popcnt⟩ ]

/-- Families 2, 3 and 4 of the opcode table (R52). -/
def opcodeRowsB : List OpcodeRow :=
  [ ⟨0xFF#8, 0x20#8, .rev⟩, ⟨0xFF#8, 0x21#8, .revb⟩,
    ⟨0xFF#8, 0x30#8, .add128⟩, ⟨0xFF#8, 0x31#8, .add⟩, ⟨0xFF#8, 0x32#8, .incr⟩, ⟨0xFF#8, 0x33#8, .decr⟩,
    ⟨0xFF#8, 0x40#8, .fmtBin⟩, ⟨0xFF#8, 0x41#8, .fmtOct⟩, ⟨0xFF#8, 0x42#8, .fmtDec⟩,
    ⟨0xFF#8, 0x43#8, .fmtHexl⟩, ⟨0xFF#8, 0x44#8, .fmtHexu⟩, ⟨0xFF#8, 0x45#8, .fmtStr⟩ ]

/-- The opcode table of R52, "the match is on all eight bits". -/
def opcodeRows : List OpcodeRow := opcodeRowsA ++ opcodeRowsB

/-- The row that an operation code selects. -/
def OpcodeRow.selects (op : Byte) (row : OpcodeRow) : Bool := op &&& row.mask == row.pattern

/-- The operation that the code on port OP selects; "a decoder tells everything from OP alone" (R50). A code
outside the table of R52 is reserved (R55). -/
def decode (op : Byte) : Except DecodeError Instr :=
  match opcodeRows.find? (OpcodeRow.selects op) with
  | some row => .ok row.instr
  | none => .error (.reserved op)

/-- Decoding a sequence of bytes: an operation is one byte, no more and no less (R50, R58). -/
def decodeBytes : List Byte → Except DecodeError Instr
  | [] => .error .missing
  | [op] => decode op
  | _ :: _ :: _ => .error .trailing

/-- The bytes of a word of `n` bytes, the least significant first (the numbering of spec/opcode_table.json). -/
def bytesOf : Nat → Nat → List Byte
  | 0, _ => []
  | n + 1, w => BitVec.ofNat 8 w :: bytesOf n (w / 2 ^ 8)

/-- The instruction the decoder reads from a table word of `nbits` bits; a value that does not fit `nbits` bits is
no such word. -/
def decodeTableWord (nbits w : Nat) : Option Instr :=
  if w < 2 ^ nbits then (decodeBytes (bytesOf (nbits / 8) w)).toOption else none

/-- The family number, OP[7:4] (R50, R52). -/
def Instr.family : Instr → BitVec 4
  | .zero => 0
  | .max => 0
  | .eq => 0
  | .cmp => 0
  | .len => 1
  | .clz => 1
  | .ctz => 1
  | .popcnt => 1
  | .rev => 2
  | .revb => 2
  | .add128 => 3
  | .add => 3
  | .incr => 3
  | .decr => 3
  | .fmtBin => 4
  | .fmtOct => 4
  | .fmtDec => 4
  | .fmtHexl => 4
  | .fmtHexu => 4
  | .fmtStr => 4

/-- The function number within the family, OP[3:0] (R50, R52). -/
def Instr.function : Instr → BitVec 4
  | .zero => 0
  | .max => 1
  | .eq => 2
  | .cmp => 3
  | .len => 0
  | .clz => 1
  | .ctz => 2
  | .popcnt => 3
  | .rev => 0
  | .revb => 1
  | .add128 => 0
  | .add => 1
  | .incr => 2
  | .decr => 3
  | .fmtBin => 0
  | .fmtOct => 1
  | .fmtDec => 2
  | .fmtHexl => 3
  | .fmtHexu => 4
  | .fmtStr => 5

/-- The operation code: the family nibble above the function nibble (R50). -/
def encode (i : Instr) : Byte := i.family ++ i.function

end Sys2Proof
end

