-- ==== Sys2Proof/Machine/State.lean ====
section
/-! DEFINITION. The ports and the state of the block. The spec gives the block no stored architectural state (spec/10_state.md R20, R28 to R34): State holds what stands on its ports, the requests in flight (spec/70_reset_and_hazards.md R150, R156), and the model's own plain data for what the outside world and an implementation's timing do. -/

namespace Sys2Proof.Machine

/-- The request ports OP, X, Y and CI, "all sampled together" (R24, R45). -/
structure Request where
  op : Byte
  x : Uint128
  y : Uint128
  ci : Uint128
deriving DecidableEq, Repr

/-- The values of the request ports when nothing drives them. [DESIGN CHOICE: log entry 2] -/
def Request.idle : Request := { op := 0, x := 0, y := 0, ci := 0 }

/-- The response ports, all valid together while RSP_VALID = 1 (R25). `rs[k]` is character `k` of the text, the first
(most significant) at `k = 0` (R43). -/
structure Response where
  st : BitVec 2
  rv : Uint128
  rc : Uint128
  rn : Byte
  rf : BitVec 3
  rslen : Byte
  rs : Vector Byte 128
deriving DecidableEq, Repr

/-- Every response port zero: what each operation's response is outside the ports it drives (R26). -/
def Response.zero : Response :=
  { st := 0, rv := 0, rc := 0, rn := 0, rf := 0, rslen := 0, rs := Vector.ofFn fun _ => 0 }

/-- The inputs of the block as sampled on one rising edge of CLK: RST, REQ_VALID and the request ports (R24, R152). -/
structure Inputs where
  rst : Bool
  reqValid : Bool
  req : Request
deriving DecidableEq, Repr

/-- The inputs when nothing drives them: no reset, no request. [DESIGN CHOICE: log entry 2] -/
def Inputs.idle : Inputs := { rst := false, reqValid := false, req := Request.idle }

/-- A request accepted and not yet answered (R156), as sampled at its accepting edge (R152), with the cycles of its
LAT that are still to pass (R157). -/
structure InFlight where
  req : Request
  left : Nat
deriving DecidableEq, Repr

/-- The state between two clock edges. -/
structure State where
  /-- The outside world: the input samples of the coming edges, the next first; idle where none is listed. The MODEL's
  own field. [DESIGN CHOICE: log entry 2] -/
  pins : List Inputs
  /-- Whether the block itself is willing to accept at the coming edges, the next first; willing where none is listed
  (R153 leaves open when REQ_READY is 0). A free value, the MODEL's own field. [DESIGN CHOICE: log entry 3] -/
  willing : List Bool
  /-- LAT, from the operation and the operands it reads (R5, R157: open). A free value, the same for the whole run.
  [DESIGN CHOICE: log entry 3] -/
  lat : Config.Latency Request
  /-- DEPTH - 1: how many requests beyond one may be in flight (R5, R156: DEPTH is open, at least 1). A free value.
  [DESIGN CHOICE: log entry 4] -/
  depthPred : Nat
  /-- The requests accepted and not yet answered, oldest first (R150, R156). -/
  pending : List InFlight
  /-- The request the operation under way reads, as sampled (R45, R152). The MODEL's own field.
  [DESIGN CHOICE: log entry 5] -/
  req : Request
  /-- The response presented in this cycle: `some` exactly while RSP_VALID = 1. While it is `none` the response ports
  carry no meaning (R27), and no term denotes them. -/
  rsp : Option Response
deriving DecidableEq, Repr

/-- A fault would stop the machine. The block has none: "no operation raises an exception, traps, faults, hangs or
refuses to answer, for any operand values" (R130), so nothing raises one and the type is empty. Safe: nothing is
claimed of a stopped machine. -/
inductive Fault
deriving DecidableEq, Repr

/-- A refusal: the model has no meaning for the instruction. -/
inductive Refusal
  /-- Raised by `exec` alone, for an instruction that has no meaning yet, named as the table spells it. Safe: the run
  stops. -/
  | notModelled (mnemonic : String)
deriving DecidableEq, Repr

/-- The block right after reset (R150, R34): nothing in flight, RSP_VALID = 0; there is no register to reset. The inputs
are idle until something drives them (log entry 2), and the open parameters are those R5 allows a model to take, LAT = 0
and DEPTH = 1 (log entries 3, 4); the sampled request is zero (log entry 5). -/
def State.reset : State :=
  { pins := [], willing := [], lat := Config.Latency.zero, depthPred := 0, pending := [], req := Request.idle,
    rsp := none }

end Sys2Proof.Machine
end

