-- ==== Sys2Proof/Machine/Ops.lean ====
section
/-! DEFINITION. The named operations: words of a value, the word-level functions of spec/00_scope.md R9, the adder of spec/43_arith.md R100, digits and characters of spec/44_format.md R110 to R113, and the driving of the response ports. -/

namespace Sys2Proof.Machine

/-! ## Words of a value (R7) -/

/-- `v.H`, bits 127:64. -/
def hi (v : Uint128) : Word := v.extractLsb' 64 64

/-- `v.L`, bits 63:0. -/
def lo (v : Uint128) : Word := v.extractLsb' 0 64

/-- `{h, l}`. -/
def join (h l : Word) : Uint128 := h ++ l

/-- The constant `Zero` (R23). -/
def zeroConst : Uint128 := join 0x0000000000000000#64 0x0000000000000000#64

/-- The constant `MaxUint128` (R23). -/
def maxConst : Uint128 := join 0xFFFFFFFFFFFFFFFF#64 0xFFFFFFFFFFFFFFFF#64

/-! ## Word-level functions (R9) -/

/-- Zero bits of `w` from bit `n - 1` downwards, up to the first set bit or the end. -/
def leadingZerosFrom (w : Word) : Nat → Nat
  | 0 => 0
  | n + 1 => if w.getLsbD n then 0 else 1 + leadingZerosFrom w n

/-- `clz64`; 64 on the zero word (R9). -/
def clz64 (w : Word) : Nat := leadingZerosFrom w 64

/-- Zero bits of `w` from bit `64 - n` upwards, over at most `n` bits. -/
def trailingZerosFrom (w : Word) : Nat → Nat
  | 0 => 0
  | n + 1 => if w.getLsbD (64 - (n + 1)) then 0 else 1 + trailingZerosFrom w n

/-- `ctz64`; 64 on the zero word (R9). -/
def ctz64 (w : Word) : Nat := trailingZerosFrom w 64

/-- Set bits of `w` among its lowest `n`. -/
def onesBelow (w : Word) : Nat → Nat
  | 0 => 0
  | n + 1 => onesBelow w n + (w.getLsbD n).toNat

/-- `popcnt64` (R9). -/
def popcnt64 (w : Word) : Nat := onesBelow w 64

/-- The `n`-bit vector whose bit `i` is `f i`: a fixed wiring. -/
def wired (f : Nat → Bool) : (n : Nat) → BitVec n
  | 0 => 0
  | n + 1 => BitVec.cons (f n) (wired f n)

/-- `rev64`: bit `i` of the result is bit `63 - i` of `w` (R9). -/
def rev64 (w : Word) : Word := wired (fun i => w.getLsbD (63 - i)) 64

/-- `bswap64`: byte `k` of the result is byte `7 - k` of `w`, the bits inside each byte unchanged (R9). -/
def bswap64 (w : Word) : Word := wired (fun i => w.getLsbD (8 * (7 - i / 8) + i % 8)) 64

/-! ## The adder (R100) -/

/-- One word of the adder: the exact sum, cut into the word and its carry (R100, D29). -/
def addWord (a b : Word) (c : Nat) : Word × Nat :=
  let t := a.toNat + b.toNat + c
  (BitVec.ofNat 64 (t % 2 ^ 64), t / 2 ^ 64)

/-- The two-word adder: the low words with the carry in, then the high words with the carry between the words
(R100). -/
def addCarry (x y : Uint128) (c : Nat) : Uint128 × Nat :=
  let l := addWord (lo x) (lo y) c
  let h := addWord (hi x) (hi y) l.2
  (join h.1 l.1, h.2)

/-! ## Digits and characters (R110 to R113) -/

/-- The digits of `v` in base `b`, the least significant first, none for zero; `fuel` bounds the loop of R113, which
runs at most 128 times. -/
def digitsLow (b : Nat) : (fuel : Nat) → Nat → List Nat
  | 0, _ => []
  | fuel + 1, v => if v = 0 then [] else v % b :: digitsLow b fuel (v / b)

/-- The canonical digits of the whole 128-bit value, the most significant first; the value zero is the single digit 0
(R110, R113). -/
def canonicalDigits (b : Nat) (x : Uint128) : List Nat :=
  if x = 0 then [0] else (digitsLow b 128 x.toNat).reverse

/-- The character of a digit: `0`..`9` for 0..9, and for 10..15 the letters from `letterA` on (R112;
the spec itself marks the ASCII codes as general knowledge, G1, G2). -/
def digitChar (letterA : Byte) (d : Nat) : Byte :=
  if d < 10 then 0x30#8 + BitVec.ofNat 8 d else letterA + BitVec.ofNat 8 (d - 10)

/-- The code of `a` (R112). -/
def lowerA : Byte := 0x61#8

/-- The code of `A` (R112). -/
def upperA : Byte := 0x41#8

/-- The characters of `x` in base `b`, the most significant first (R110, R112). -/
def fmtText (b : Nat) (letterA : Byte) (x : Uint128) : List Byte :=
  (canonicalDigits b x).map (digitChar letterA)

/-- The port RS for a text: its characters in order, then 0x00 (R43, R123). -/
def textPort (cs : List Byte) : Vector Byte 128 := Vector.ofFn fun k => cs.getD k.val 0

/-! ## Driving the response ports: every port not named is zero (R26) -/

/-- A response that drives RV alone. -/
def driveRV (v : Uint128) : Response := { Response.zero with rv := v }

/-- A response that drives RN alone, with the low 8 bits of the count (R80 to R83: `RN <- n[7:0]`). -/
def driveRN (n : Nat) : Response := { Response.zero with rn := BitVec.ofNat 8 n }

/-- A response that drives RF alone. -/
def driveRF (f : BitVec 3) : Response := { Response.zero with rf := f }

/-- A response that drives RSLEN and RS with a text (R113, R123). -/
def driveText (cs : List Byte) : Response :=
  { Response.zero with rslen := BitVec.ofNat 8 cs.length, rs := textPort cs }

/-- A response that drives RV with a sum, RC with a carry, `{127'b0, carry}`, and ST (R100). -/
def driveSum (st : BitVec 2) (sum : Uint128) (cout : Nat) : Response :=
  { Response.zero with st := st, rv := sum, rc := BitVec.ofNat 128 cout }

/-- The response of the transaction under way: all response ports together, and nothing else (R45). -/
def State.answerWith (s : State) (r : Response) : State := { s with rsp := some r }

end Sys2Proof.Machine
end

