-- ==== Sys2Proof/Machine/Operands.lean ====
section
/-! DEFINITION. The operand ports as the operations read them (spec/30_encoding.md R51, R54). -/

namespace Sys2Proof

/-- The formats that read X (R51). -/
def Format.readsX (f : Format) : Bool := f != .nullary

/-- The formats that read Y (R51). -/
def Format.readsY (f : Format) : Bool := f == .binary || f == .ternary

/-- The format that reads CI (R51). -/
def Format.readsCI (f : Format) : Bool := f == .ternary

namespace Machine

/-- What the block reads of a request: a port the format of its operation does not read is ignored (R24, R51), and so
is every operand port of a request with a reserved opcode (R56). An ignored port stands as zero here. -/
def Request.asRead (q : Request) : Request :=
  match decode q.op with
  | .ok i =>
    { op := q.op
      x := if i.format.readsX then q.x else 0
      y := if i.format.readsY then q.y else 0
      ci := if i.format.readsCI then q.ci else 0 }
  | .error _ => { op := q.op, x := 0, y := 0, ci := 0 }

/-- The operand on X, "used whole" (R54). -/
def State.opX (s : State) : Uint128 := s.req.x

/-- The operand on Y, "used whole" (R54). -/
def State.opY (s : State) : Uint128 := s.req.y

/-- The value on CI. -/
def State.opCI (s : State) : Uint128 := s.req.ci

/-- The carry that CI gives: bit 0 alone, `c = CI[0]` (R54, R101). -/
def carryIn (ci : Uint128) : Nat := (ci.getLsbD 0).toNat

end Machine

end Sys2Proof
end

