-- ==== Sys2Proof/Machine/Flags.lean ====
section
/-! DEFINITION. The flag-like results: RF (spec/40_construct_compare.md R72, R73) and ST (spec/60_exceptions.md R131 to R133). None is stored (spec/10_state.md R30). -/

namespace Sys2Proof.Machine

/-- `RF = {GT, LT, EQ}` (R25, R73). -/
def rfOf (gt lt eq : Bool) : BitVec 3 := BitVec.ofBool gt ++ BitVec.ofBool lt ++ BitVec.ofBool eq

/-- Structural equality of both words (R72). -/
def wordsEqual (x y : Uint128) : Bool := hi x == hi y && lo x == lo y

/-- RF of `EQ`: the bit EQ only, whatever the order (R72). -/
def eqFlags (x y : Uint128) : BitVec 3 := rfOf false false (wordsEqual x y)

/-- RF of `CMP`: the high words first, then the low words; all comparisons unsigned (R73). -/
def cmpFlags (x y : Uint128) : BitVec 3 :=
  if (hi x).ult (hi y) then rfOf false true false
  else if (hi y).ult (hi x) then rfOf true false false
  else if (lo x).ult (lo y) then rfOf false true false
  else if (lo y).ult (lo x) then rfOf true false false
  else rfOf false false true

/-- `ST = {CIV, ILL}` (R25). -/
def stOf (civ ill : Bool) : BitVec 2 := BitVec.ofBool civ ++ BitVec.ofBool ill

/-- Bits 127:1 of CI are not all zero: the carry-in contract is broken (R101). -/
def carryInDirty (ci : Uint128) : Bool := ci.extractLsb' 1 127 != 0

/-- ST of an `ADD128` response (R100, R132). -/
def addStatus (ci : Uint128) : BitVec 2 := stOf (carryInDirty ci) false

/-- ST of the response to a reserved opcode (R131, R133). -/
def illStatus : BitVec 2 := stOf false true

/-- The response to a reserved opcode, the block's only report of an illegal operation: ST.ILL = 1, every other response
port zero, no operand read (R56, R131). -/
def reservedResponse : Response := { Response.zero with st := illStatus }

end Sys2Proof.Machine
end

