-- ==== Sys2Proof/Machine/Arith.lean ====
section
/-! DEFINITION. Family 3: ADD128, ADD, INCR, DECR, by the two-word decompositions of spec/43_arith.md. -/

namespace Sys2Proof.Machine

/-- Wrapping addition: the sum part of the adder with no carry in (R102). -/
def wrappingAdd (x y : Uint128) : Uint128 := (addCarry x y 0).1

/-- Add one, wrapping: the high word changes only where the low word is all ones (R103). -/
def increment (x : Uint128) : Uint128 :=
  join (hi x + BitVec.ofNat 64 (lo x == 0xFFFFFFFFFFFFFFFF#64).toNat) (lo x + 1)

/-- Subtract one, wrapping: a borrow is taken from the high word only where the low word is zero (R104). -/
def decrement (x : Uint128) : Uint128 :=
  join (hi x - BitVec.ofNat 64 (lo x == 0#64).toNat) (lo x - 1)

/-- `ADD128`: the sum with `c = CI[0]`, the carry out on RC, and ST.CIV where CI has a bit above bit 0 (R100, R101). -/
def execAdd128 (s : State) : Host.Outcome State Fault Refusal :=
  let sum := addCarry s.opX s.opY (carryIn s.opCI)
  .next (s.answerWith (driveSum (addStatus s.opCI) sum.1 sum.2))

/-- `ADD` (R102). -/
def execAdd (s : State) : Host.Outcome State Fault Refusal :=
  .next (s.answerWith (driveRV (wrappingAdd s.opX s.opY)))

/-- `INCR` (R103). -/
def execIncr (s : State) : Host.Outcome State Fault Refusal :=
  .next (s.answerWith (driveRV (increment s.opX)))

/-- `DECR` (R104). -/
def execDecr (s : State) : Host.Outcome State Fault Refusal :=
  .next (s.answerWith (driveRV (decrement s.opX)))

end Sys2Proof.Machine
end

