-- ==== Sys2Proof/Machine/BitCount.lean ====
section
/-! DEFINITION. Family 1: LEN, CLZ, CTZ, POPCNT, by the two-word decompositions of spec/41_bitcount.md. -/

namespace Sys2Proof.Machine

/-- The bit length of a value (R80). -/
def bitLength (x : Uint128) : Nat :=
  if hi x ≠ 0 then 128 - clz64 (hi x)
  else if lo x ≠ 0 then 64 - clz64 (lo x)
  else 0

/-- The leading zeros of a value (R81). -/
def leadingZeros (x : Uint128) : Nat :=
  if hi x ≠ 0 then clz64 (hi x) else 64 + clz64 (lo x)

/-- The trailing zeros of a value (R82). -/
def trailingZeros (x : Uint128) : Nat :=
  if lo x ≠ 0 then ctz64 (lo x) else 64 + ctz64 (hi x)

/-- The set bits of a value (R83). -/
def onesCount (x : Uint128) : Nat := popcnt64 (hi x) + popcnt64 (lo x)

/-- `LEN` (R80). -/
def execLen (s : State) : Host.Outcome State Fault Refusal :=
  .next (s.answerWith (driveRN (bitLength s.opX)))

/-- `CLZ` (R81). -/
def execClz (s : State) : Host.Outcome State Fault Refusal :=
  .next (s.answerWith (driveRN (leadingZeros s.opX)))

/-- `CTZ` (R82). -/
def execCtz (s : State) : Host.Outcome State Fault Refusal :=
  .next (s.answerWith (driveRN (trailingZeros s.opX)))

/-- `POPCNT` (R83). -/
def execPopcnt (s : State) : Host.Outcome State Fault Refusal :=
  .next (s.answerWith (driveRN (onesCount s.opX)))

end Sys2Proof.Machine
end

