-- ==== Sys2Proof/Machine/ConstructCompare.lean ====
section
/-! DEFINITION. Family 0: ZERO, MAX, EQ, CMP (spec/40_construct_compare.md). -/

namespace Sys2Proof.Machine

/-- `ZERO` (R70). -/
def execZero (s : State) : Host.Outcome State Fault Refusal :=
  .next (s.answerWith (driveRV zeroConst))

/-- `MAX` (R71). -/
def execMax (s : State) : Host.Outcome State Fault Refusal :=
  .next (s.answerWith (driveRV maxConst))

/-- `EQ` (R72). -/
def execEq (s : State) : Host.Outcome State Fault Refusal :=
  .next (s.answerWith (driveRF (eqFlags s.opX s.opY)))

/-- `CMP` (R73). -/
def execCmp (s : State) : Host.Outcome State Fault Refusal :=
  .next (s.answerWith (driveRF (cmpFlags s.opX s.opY)))

end Sys2Proof.Machine
end

