-- ==== Sys2Proof/Machine/Reverse.lean ====
section
/-! DEFINITION. Family 2: REV, REVB, by the two-word decompositions of spec/42_reverse.md. -/

namespace Sys2Proof.Machine

/-- All 128 bits in opposite order: each word reversed, then the words swapped (R90). -/
def reverseBits (x : Uint128) : Uint128 := join (rev64 (lo x)) (rev64 (hi x))

/-- The 16 bytes in opposite order: each word byte-reversed, then the words swapped (R91). -/
def reverseBytes (x : Uint128) : Uint128 := join (bswap64 (lo x)) (bswap64 (hi x))

/-- `REV` (R90). -/
def execRev (s : State) : Host.Outcome State Fault Refusal :=
  .next (s.answerWith (driveRV (reverseBits s.opX)))

/-- `REVB` (R91). -/
def execRevb (s : State) : Host.Outcome State Fault Refusal :=
  .next (s.answerWith (driveRV (reverseBytes s.opX)))

end Sys2Proof.Machine
end

