-- ==== Sys2Proof/Machine/TextFormat.lean ====
section
/-! DEFINITION. Family 4: FMT.BIN, FMT.OCT, FMT.DEC, FMT.HEXL, FMT.HEXU, FMT.STR, by the reference algorithm of spec/44_format.md R113, over the whole 128-bit value (R121, R122). -/

namespace Sys2Proof.Machine

/-- `FMT.BIN`: base 2 (R114). -/
def execFmtBin (s : State) : Host.Outcome State Fault Refusal :=
  .next (s.answerWith (driveText (fmtText 2 lowerA s.opX)))

/-- `FMT.OCT`: base 8 (R115). -/
def execFmtOct (s : State) : Host.Outcome State Fault Refusal :=
  .next (s.answerWith (driveText (fmtText 8 lowerA s.opX)))

/-- `FMT.DEC`: base 10 (R116). -/
def execFmtDec (s : State) : Host.Outcome State Fault Refusal :=
  .next (s.answerWith (driveText (fmtText 10 lowerA s.opX)))

/-- `FMT.HEXL`: base 16, lower-case letters (R117). -/
def execFmtHexl (s : State) : Host.Outcome State Fault Refusal :=
  .next (s.answerWith (driveText (fmtText 16 lowerA s.opX)))

/-- `FMT.HEXU`: base 16, upper-case letters (R118). -/
def execFmtHexu (s : State) : Host.Outcome State Fault Refusal :=
  .next (s.answerWith (driveText (fmtText 16 upperA s.opX)))

/-- `FMT.STR`: the default form, the decimal digits (R119). -/
def execFmtStr (s : State) : Host.Outcome State Fault Refusal :=
  .next (s.answerWith (driveText (fmtText 10 lowerA s.opX)))

end Sys2Proof.Machine
end

