-- ==== Sys2Proof/Machine/Dispatch.lean ====
section
/-! DEFINITION. One arm per operation. -/

namespace Sys2Proof.Machine

def exec (i : Instr) (s : State) : Host.Outcome State Fault Refusal :=
  match i with
  | .zero => Sys2Proof.Machine.execZero s
  | .max => Sys2Proof.Machine.execMax s
  | .eq => Sys2Proof.Machine.execEq s
  | .cmp => Sys2Proof.Machine.execCmp s
  | .len => Sys2Proof.Machine.execLen s
  | .clz => Sys2Proof.Machine.execClz s
  | .ctz => Sys2Proof.Machine.execCtz s
  | .popcnt => Sys2Proof.Machine.execPopcnt s
  | .rev => Sys2Proof.Machine.execRev s
  | .revb => Sys2Proof.Machine.execRevb s
  | .add128 => Sys2Proof.Machine.execAdd128 s
  | .add => Sys2Proof.Machine.execAdd s
  | .incr => Sys2Proof.Machine.execIncr s
  | .decr => Sys2Proof.Machine.execDecr s
  | .fmtBin => Sys2Proof.Machine.execFmtBin s
  | .fmtOct => Sys2Proof.Machine.execFmtOct s
  | .fmtDec => Sys2Proof.Machine.execFmtDec s
  | .fmtHexl => Sys2Proof.Machine.execFmtHexl s
  | .fmtHexu => Sys2Proof.Machine.execFmtHexu s
  | .fmtStr => Sys2Proof.Machine.execFmtStr s

end Sys2Proof.Machine
end

