-- ==== Sys2Proof/Machine/Handshake.lean ====
section
/-! DEFINITION. The clock edge: reset (spec/70_reset_and_hazards.md R150), acceptance (R152), the requests in flight (R156), and the answering of one request (spec/00_scope.md R10). -/

namespace Sys2Proof.Machine

/-- The inputs sampled at the coming edge. -/
def State.input (s : State) : Inputs := s.pins.headD Inputs.idle

/-- Whether the block itself is willing to accept at the coming edge (R153). -/
def State.isWilling (s : State) : Bool := s.willing.headD true

/-- The cycles that a table of latencies gives a request: it depends on the operation and on the operands that the
operation reads, "but on nothing else" (R157). -/
def latencyOf (l : Config.Latency Request) (q : Request) : Nat :=
  match l.entries.find? fun e => e.1 == q.asRead with
  | some e => e.2
  | none => l.base

/-- `LAT` of a request: "the number of cycles from the accepting edge to the response" (R157). -/
def State.latOf (s : State) (q : Request) : Nat := latencyOf s.lat q

/-- `DEPTH`, at least 1 (R5). -/
def State.depth (s : State) : Nat := s.depthPred + 1

/-- The output REQ_READY before the coming edge: 0 while RST = 1 (R150); otherwise the block can accept where it is
willing and fewer than DEPTH requests are in flight (R152, R156). [DEDUCED: log entry 4] -/
def State.reqReady (s : State) : Bool :=
  !s.input.rst && s.isWilling && decide (s.pending.length < s.depth)

/-- The output RSP_VALID (R25). -/
def State.rspValid (s : State) : Bool := s.rsp.isSome

/-- Whether the coming edge accepts a request: RST = 0, REQ_VALID = 1 and REQ_READY = 1 (R152; REQ_READY is 0 under
RST). -/
def State.accepts (s : State) : Bool := s.input.reqValid && s.reqReady

/-- The edge is past: its input sample and its listed willingness are used up. -/
def State.advance (s : State) : State := { s with pins := s.pins.tail, willing := s.willing.tail }

/-- An edge with RST = 1: RSP_VALID = 0, and every request in flight is discarded and never answered (R150). -/
def State.resetEdge (s : State) : State := { s.advance with pending := [], rsp := none }

/-- An edge with RST = 0, its acceptance: OP, X, Y and CI are sampled together and join the requests in flight as the
youngest, with the LAT of that request still to pass (R152, R156, R157). -/
def State.acceptEdge (s : State) : State :=
  if s.accepts then
    { s.advance with pending := s.pending ++ [{ req := s.input.req, left := s.latOf s.input.req }] }
  else s.advance

/-- One cycle of latency passes for each request in flight (R157). [DEDUCED: log entry 11] -/
def age (q : List InFlight) : List InFlight := q.map fun p => { p with left := p.left - 1 }

/-- The answer to the sampled request: the operation its OP selects (R50), or the report of a reserved opcode
(R56). -/
def State.answer (s : State) : Host.Outcome State Fault Refusal :=
  match decode s.req.op with
  | .ok i => exec i s
  | .error _ => .next (s.answerWith reservedResponse)

/-- The oldest request in flight becomes the sampled request that the operation reads, and leaves the queue. -/
def State.retire (s : State) (p : InFlight) (rest : List InFlight) : State :=
  { s with req := p.req, pending := age rest, rsp := none }

/-- A cycle that presents no response (RSP_VALID = 0). -/
def State.wait (s : State) : State := { s with pending := age s.pending, rsp := none }

/-- The response side of a cycle: the oldest request in flight is answered once its latency has passed; "at most one
response presented per cycle", in the order of acceptance (R152, R156). -/
def State.serve (s : State) : Host.Outcome State Fault Refusal :=
  match s.pending with
  | [] => .next s.wait
  | p :: rest => if p.left = 0 then (s.retire p rest).answer else .next s.wait

/-- One cycle, ended by one rising edge of CLK (R150, R152). With LAT = 0 a request is answered in the cycle that
accepts it (R152). [DEDUCED: log entries 1, 11] -/
def State.clockEdge (s : State) : Host.Outcome State Fault Refusal :=
  if s.input.rst then .next s.resetEdge else s.acceptEdge.serve

/-- The block as the function from requests to responses that R10 speaks of, read off `answer`. -/
def respond (r : Request) : Response :=
  match ({ State.reset with req := r }).answer with
  | .next t => t.rsp.getD Response.zero
  | .fault _ => Response.zero
  | .refused _ => Response.zero

/-- A request for an operation with these operands on the ports. -/
def Request.of (i : Instr) (x y ci : Uint128) : Request := { op := encode i, x := x, y := y, ci := ci }

/-- A state whose coming edge accepts the request `r` and answers it in the same cycle: nothing in flight, no reset,
the block willing, and LAT = 0 for this request (R152). It stands for a requester presenting the request. -/
def State.present (s : State) (r : Request) : State :=
  { s with
    pins := { rst := false, reqValid := true, req := r } :: s.pins.tail
    willing := true :: s.willing.tail
    lat := { s.lat with entries := (r.asRead, 0) :: s.lat.entries }
    pending := [] }

end Sys2Proof.Machine
end

