-- ==== Sys2Proof/Machine/Step.lean ====
section
/-! DEFINITION. One step: one cycle of the block. The block fetches no instruction (spec/10_state.md R29): an operation comes in on the port OP. -/

namespace Sys2Proof.Machine

/-- One step is one cycle, ended by a rising edge of CLK. -/
def step (s : State) : Host.Outcome State Fault Refusal := s.clockEdge

/-- A requester presents the table word `w` on OP at the coming edge, so that this edge accepts and answers it; X, Y and
CI stay as the outside drives them. [log entry 8] -/
def State.withFetchWord (s : State) (nbits w : Nat) : State :=
  s.present { s.input.req with op := BitVec.ofNat 8 (w % 2 ^ nbits) }

end Sys2Proof.Machine
end

