-- ==== Sys2Proof/Machine/Requester.lean ====
section
/-! DEFINITION. The requester's side, outside the block: temporaries, transactions and straight-line programs (spec/30_encoding.md R59, spec/70_reset_and_hazards.md R158), and chained addition (spec/43_arith.md R105). Nothing of it is state of the block (R20). -/

namespace Sys2Proof.Machine

/-- What a temporary `%n` holds: a value of one of the five kinds of result (R25, R59). -/
inductive Value
  | u128 (v : Uint128)
  | count (n : Byte)
  | flags (f : BitVec 3)
  | text (cs : List Byte)
deriving DecidableEq, Repr

/-- The requester's temporaries, the latest value of a name first (R59, R158). -/
abbrev Temps := List (Nat × Value)

/-- The value of the temporary `%n`. -/
def Temps.get (ts : Temps) (n : Nat) : Option Value := (ts.find? fun e => e.1 == n).map Prod.snd

/-- The temporaries after `%n` receives a value. -/
def Temps.set (ts : Temps) (n : Nat) (v : Value) : Temps := (n, v) :: ts.filter fun e => e.1 != n

/-- The value of an operand; none where the temporary holds no Uint128 (R59). -/
def operandValue (ts : Temps) : Operand → Option Uint128
  | .temp n =>
    match ts.get n with
    | some (.u128 v) => some v
    | _ => none
  | .lit v => some (BitVec.ofNat 128 v)
  | .pair h l => some (join (BitVec.ofNat 64 h) (BitVec.ofNat 64 l))

/-- The request of a line: its operands in the order X, Y, CI (R59); a port the operation does not read gets zero, which
it ignores (R24). [DESIGN CHOICE: log entry 10] -/
def lineRequest (ts : Temps) (ln : Line) : Option Request :=
  match ln.operands.mapM (operandValue ts) with
  | some vs => some (Request.of ln.instr (vs.getD 0 0) (vs.getD 1 0) (vs.getD 2 0))
  | none => none

/-- The text of a response, `RS[0 .. RSLEN-1]` (R59). -/
def Response.text (r : Response) : List Byte := r.rs.toList.take r.rslen.toNat

/-- What a line's result name receives from a result port (R59). -/
def Response.result (r : Response) : ResultPort → Value
  | .rv => .u128 r.rv
  | .rc => .u128 r.rc
  | .rn => .count r.rn
  | .rf => .flags r.rf
  | .rs => .text r.text

/-- The temporaries after a response: the line's names receive the response ports the operation drives, in order. -/
def lineReceive (ln : Line) (r : Response) (ts : Temps) : Temps :=
  (ln.results.zip (ln.instr.results.map r.result)).foldl (fun u e => u.set e.1 e.2) ts

/-- The request of a transaction. A reserved opcode goes onto OP as it is, with the values on X, Y and CI. -/
def transactionRequest (ts : Temps) : Transaction → Option Request
  | .line ln => lineRequest ts ln
  | .reserved op x y ci =>
    match operandValue ts x, operandValue ts y, operandValue ts ci with
    | some a, some b, some c => some { op := op, x := a, y := b, ci := c }
    | _, _, _ => none

/-- The temporaries after the response to a transaction; the report of a reserved opcode "carries no result" (R56). -/
def transactionReceive (tr : Transaction) (r : Response) (ts : Temps) : Temps :=
  match tr with
  | .line ln => lineReceive ln r ts
  | .reserved _ _ _ _ => ts

/-- The requester issues one transaction: it presents the request, and has the response. The temporaries after it, and
the ST of the response, which no result names (R59). None where the transaction is ill formed or an operand holds no
Uint128. [DESIGN CHOICE: log entry 10] -/
def runTransaction (ts : Temps) (tr : Transaction) : Option (Temps × BitVec 2) :=
  if tr.wf then
    match transactionRequest ts tr with
    | some q => some (transactionReceive tr (respond q) ts, (respond q).st)
    | none => none
  else none

/-- The end state of a program: the requester's temporaries (R158), and "any non-zero `ST`" (R59), each with the number
of its transaction, counted from 1. -/
structure EndState where
  temps : Temps
  status : List (Nat × BitVec 2)
deriving DecidableEq, Repr

/-- The transactions of a program from number `k` on. -/
def runFrom (k : Nat) (ts : Temps) : List Transaction → Option EndState
  | [] => some { temps := ts, status := [] }
  | tr :: rest =>
    match runTransaction ts tr with
    | some (u, st) =>
      (runFrom (k + 1) u rest).map fun e => { e with status := (if st = 0 then [] else [(k, st)]) ++ e.status }
    | none => none

/-- A run of a program: "a finite list of transactions issued by one requester", which ends with the response to the last
of them (R158). -/
def runProgram (ts : Temps) (p : List Transaction) : Option EndState := runFrom 1 ts p

/-- Multi-limb addition: one `ADD128` per pair of limbs, the lowest first, the whole RC of one transaction routed to the
CI of the next (R105). It gives the responses, in order. -/
def chainAdd (carry : Uint128) : List (Uint128 × Uint128) → List Response
  | [] => []
  | (a, b) :: rest =>
    let r := respond (Request.of .add128 a b carry)
    r :: chainAdd r.rc rest

/-- The carry that leaves the chain: RC of its last response, or the carry that entered. -/
def chainCarry (carry : Uint128) (rs : List Response) : Uint128 := (rs.getLast?.map Response.rc).getD carry

/-- The integer whose limbs of 128 bits are these, the lowest first (R105). -/
def limbs : List Uint128 → Nat
  | [] => 0
  | v :: rest => v.toNat + 2 ^ 128 * limbs rest

end Sys2Proof.Machine
end

