-- ==== Sys2Proof/Safety.lean ====
section
/-! DEFINITION. What counts as a safe run, and the terms the claims are stated in: the status of a response (spec/60_exceptions.md R131 to R133), the requester's contract (spec/70_reset_and_hazards.md R155), legal responses, the invariant of the handshake, and what a run accepts and presents (R156). -/

namespace Sys2Proof.Machine

/-! ## Status and contract -/

/-- `ST.ILL = ST[0]` (R131). -/
def Response.ill (r : Response) : Bool := r.st.getLsbD 0

/-- `ST.CIV = ST[1]` (R132). -/
def Response.civ (r : Response) : Bool := r.st.getLsbD 1

/-- A response with no status set. A claim about a requester has "no response has ST.ILL = 1" and "no response has
ST.CIV = 1" among its premises or conclusions (R56, R132; S1, U1). -/
def Response.clean (r : Response) : Bool := r.st == 0

/-- What R155 asks of a request: a defined opcode, and bits 127:1 of CI clear for `ADD128`. -/
def Request.honoursContract (q : Request) : Bool :=
  match decode q.op with
  | .ok i => i != .add128 || !carryInDirty q.ci
  | .error _ => false

/-- The response to an operation with these values on the operand ports. -/
def ask (i : Instr) (x y ci : Uint128) : Response := respond (Request.of i x y ci)

/-! ## Words of the rules -/

/-- `i` is the largest index with `x[i] = 1` (R80, R81). -/
def HighestSetBit {w : Nat} (x : BitVec w) (i : Nat) : Prop :=
  x.getLsbD i = true ∧ ∀ j, i < j → x.getLsbD j = false

/-- `i` is the smallest index with `x[i] = 1` (R82). -/
def LowestSetBit {w : Nat} (x : BitVec w) (i : Nat) : Prop :=
  x.getLsbD i = true ∧ ∀ j, j < i → x.getLsbD j = false

/-- The number of indices with `x[i] = 1` (R83). -/
def setBits {w : Nat} (x : BitVec w) : Nat := (List.range w).countP fun i => x.getLsbD i

/-- The digit sequence `ds`, most significant first, is the canonical representation of `v` in base `b` (R110). -/
def Canonical (b v : Nat) (ds : List Nat) : Prop :=
  (∀ d ∈ ds, d < b) ∧ Nat.ofDigits b ds.reverse = v ∧ (v = 0 → ds = [0]) ∧ (v ≠ 0 → ds.head? ≠ some 0)

/-- The code of the character of a digit (R112). -/
def charCode (upper : Bool) (d : Nat) : Nat :=
  if d < 10 then 0x30 + d else (if upper then 0x41 else 0x61) + (d - 10)

/-- The response carries this text and nothing else: RSLEN is its length, RS its codes in order and then 0x00, every
other port zero (R26, R43, R123). -/
def CarriesText (r : Response) (codes : List Nat) : Prop :=
  r = { Response.zero with rslen := r.rslen, rs := r.rs } ∧
  r.rslen.toNat = codes.length ∧
  ∀ k (h : k < 128), (r.rs[k]).toNat = codes.getD k 0

/-- The digit that a character code stands for (R112). -/
def codeDigit (c : Nat) : Nat := if c < 0x3A then c - 0x30 else if c < 0x47 then c - 0x41 + 10 else c - 0x61 + 10

/-- Reading a text as a numeral in base `b` (R124). -/
def readNumeral (b : Nat) (t : List Byte) : Nat := t.foldl (fun a c => a * b + codeDigit c.toNat) 0

/-- A text padded on the left with the character `0` to `n` characters (R120). -/
def padZeros (n : Nat) (t : List Byte) : List Byte := List.replicate (n - t.length) 0x30#8 ++ t

/-- The six formatting operations, each with its base and whether its letters are upper case (R114 to R119). -/
def formats : List (Instr × Nat × Bool) :=
  [(.fmtBin, 2, false), (.fmtOct, 8, false), (.fmtDec, 10, false), (.fmtHexl, 16, false), (.fmtHexu, 16, true),
    (.fmtStr, 10, false)]

/-! ## Legal responses and the invariant -/

/-- What every response satisfies, whatever was asked: ST is one of three values (R133); bits 127:1 of RC are zero
(R25); a count is at most 128 (R25); at most one flag of RF is set (R72, R73); RSLEN is at most 128 and RS is 0x00
exactly from RSLEN on (R123); and under ST.ILL every result port is zero (R56). -/
def Response.legal (r : Response) : Prop :=
  (r.st = 0b00#2 ∨ r.st = 0b01#2 ∨ r.st = 0b10#2) ∧
  r.rc.toNat ≤ 1 ∧
  r.rn.toNat ≤ 128 ∧
  (r.rf = 0b000#3 ∨ r.rf = 0b001#3 ∨ r.rf = 0b010#3 ∨ r.rf = 0b100#3) ∧
  r.rslen.toNat ≤ 128 ∧
  (∀ k (h : k < 128), r.rs[k] = 0 ↔ r.rslen.toNat ≤ k) ∧
  (r.ill = true → r = { Response.zero with st := 0b01#2 })

/-- The invariant of the handshake: never more than DEPTH requests in flight (R156), none with more cycles to pass
than its LAT (R157), and a response that is presented is the one that belongs to the sampled request, and legal (R45,
R47). -/
def State.Inv (s : State) : Prop :=
  s.pending.length ≤ s.depth ∧
  (∀ p ∈ s.pending, p.left ≤ s.latOf p.req) ∧
  ∀ r, s.rsp = some r → r = respond s.req ∧ r.legal

/-! ## Runs -/

/-- `n` steps lead from `s` to `t`. -/
def stepsTo : Nat → State → State → Prop
  | 0, s, t => s = t
  | n + 1, s, t => ∃ u, step s = .next u ∧ stepsTo n u t

/-- No reset at the next `n` edges. -/
def noReset (n : Nat) (s : State) : Prop := ∀ e ∈ s.pins.take n, e.rst = false

/-- The requests accepted at the next `n` edges, in order (R152). -/
def acceptedIn : Nat → State → List Request
  | 0, _ => []
  | n + 1, s =>
    match step s with
    | .next u => (if s.accepts then [s.input.req] else []) ++ acceptedIn n u
    | .fault _ => []
    | .refused _ => []

/-- The responses presented in the next `n` cycles, in order (R152). -/
def presentedIn : Nat → State → List Response
  | 0, _ => []
  | n + 1, s =>
    match step s with
    | .next u => u.rsp.toList ++ presentedIn n u
    | .fault _ => []
    | .refused _ => []

/-- The longest time a request may still take: of the latencies left in flight and of every LAT of this implementation
(R153, R157). -/
def State.longestWait (s : State) : Nat :=
  (s.pending.map InFlight.left ++ s.lat.base :: s.lat.entries.map Prod.snd).foldr max 0

end Sys2Proof.Machine
end

