-- ==== Sys2Proof/Certificates/Slice0/Obligations.lean ====
section
/-! DEFINITION. The statements for the provers. Each docstring says which rule of spec/ it formalises. A statement about one operation gives its encoding, its next state (so that it completes for every operand and in every state, and changes nothing but the response), and the values the rule gives. -/

open Sys2Proof Sys2Proof.Machine

/-! ## Encoding (spec/30_encoding.md) -/

/-- Decode and encode agree: among all numbers, exactly the code of an operation decodes to it (R50, R52). -/
def Obligations.TableWordDecodesExactlyItsEncoding : Prop :=
  ∀ (i : Instr) (w : Nat), decodeTableWord 8 w = some i ↔ w = (encode i).toNat

/-- Words of the opcode table (R52), one or more of each family, written out from the rule. -/
def Obligations.OpcodeTableWordsDecode : Prop :=
  decode 0b00000000#8 = .ok .zero ∧ decode 0b00000001#8 = .ok .max ∧ decode 0b00000010#8 = .ok .eq ∧
  decode 0b00000011#8 = .ok .cmp ∧ decode 0b00010000#8 = .ok .len ∧ decode 0b00010001#8 = .ok .clz ∧
  decode 0b00010010#8 = .ok .ctz ∧ decode 0b00010011#8 = .ok .popcnt ∧ decode 0b00100000#8 = .ok .rev ∧
  decode 0b00100001#8 = .ok .revb ∧ decode 0b00110000#8 = .ok .add128 ∧ decode 0b00110001#8 = .ok .add ∧
  decode 0b00110010#8 = .ok .incr ∧ decode 0b00110011#8 = .ok .decr ∧ decode 0b01000000#8 = .ok .fmtBin ∧
  decode 0b01000001#8 = .ok .fmtOct ∧ decode 0b01000010#8 = .ok .fmtDec ∧ decode 0b01000011#8 = .ok .fmtHexl ∧
  decode 0b01000100#8 = .ok .fmtHexu ∧ decode 0b01000101#8 = .ok .fmtStr

/-- R55: the reserved codes are exactly the listed ranges, 236 values in all. -/
def Obligations.ReservedCodesAreTheListedRanges : Prop :=
  (∀ op : Byte, decode op = .error (.reserved op) ↔
    (0x04 ≤ op.toNat ∧ op.toNat ≤ 0x0F) ∨ (0x14 ≤ op.toNat ∧ op.toNat ≤ 0x1F) ∨
    (0x22 ≤ op.toNat ∧ op.toNat ≤ 0x2F) ∨ (0x34 ≤ op.toNat ∧ op.toNat ≤ 0x3F) ∨
    (0x46 ≤ op.toNat ∧ op.toNat ≤ 0x4F) ∨ 0x50 ≤ op.toNat) ∧
  ((List.range 256).filter fun n => decode (BitVec.ofNat 8 n) = .error (.reserved (BitVec.ofNat 8 n))).length = 236

/-- R51: a port that the format of an operation does not read is ignored, the response does not change; and each
port it reads does matter to the response. -/
def Obligations.FormatsReadExactlyTheirPorts : Prop :=
  (∀ i ∈ [Instr.zero, .max], ∀ x y ci x' y' ci' : Uint128, ask i x y ci = ask i x' y' ci') ∧
  (∀ i ∈ [Instr.len, .clz, .ctz, .popcnt, .rev, .revb, .incr, .decr, .fmtBin, .fmtOct, .fmtDec, .fmtHexl, .fmtHexu,
      .fmtStr], ∀ x y ci y' ci' : Uint128, ask i x y ci = ask i x y' ci') ∧
  (∀ i ∈ [Instr.eq, .cmp, .add], ∀ x y ci ci' : Uint128, ask i x y ci = ask i x y ci') ∧
  (∀ i ∉ [Instr.zero, .max], ∃ x x' : Uint128, ask i x 0 0 ≠ ask i x' 0 0) ∧
  (∀ i ∈ [Instr.eq, .cmp, .add, .add128], ∃ y y' : Uint128, ask i 0 y 0 ≠ ask i 0 y' 0) ∧
  (∃ ci ci' : Uint128, ask .add128 0 0 ci ≠ ask .add128 0 0 ci')

/-- R26, R53: which response ports each operation drives; a port not driven is zero, and ST is zero but for the two
cases R53 names. -/
def Obligations.PortsNotDrivenAreZero : Prop :=
  ∀ (i : Instr) (x y ci : Uint128),
    (i ∉ [Instr.max, .rev, .revb, .add128, .add, .incr, .decr] → (ask i x y ci).rv = 0) ∧
    (i ≠ .add128 → (ask i x y ci).rc = 0) ∧
    (i ∉ [Instr.len, .clz, .ctz, .popcnt] → (ask i x y ci).rn = 0) ∧
    (i ∉ [Instr.eq, .cmp] → (ask i x y ci).rf = 0) ∧
    (i ∉ [Instr.fmtBin, .fmtOct, .fmtDec, .fmtHexl, .fmtHexu, .fmtStr] →
      (ask i x y ci).rslen = 0 ∧ ∀ k (h : k < 128), (ask i x y ci).rs[k] = 0) ∧
    (i ≠ .add128 → (ask i x y ci).st = 0) ∧
    (ask i x y ci).ill = false ∧
    (ask .max x y ci).rv ≠ 0 ∧
    ((ask .eq x y ci).rf = 0b000#3 ∨ (ask .eq x y ci).rf = 0b001#3) ∧
    ((ask .cmp x y ci).rf = 0b001#3 ∨ (ask .cmp x y ci).rf = 0b010#3 ∨ (ask .cmp x y ci).rf = 0b100#3)

/-! ## Transactions and status (spec/00_scope.md, spec/10_state.md, spec/60_exceptions.md) -/

/-- R10, R20: a transaction is a total function from the request to the response: whatever the rest of the state, the
answer is `respond` of the sampled request, and it changes nothing else. -/
def Obligations.AnswerIsAFunctionOfTheRequest : Prop :=
  ∀ s : State, s.answer = .next { s with rsp := some (respond s.req) }

/-- The frame of every operation: where it answers a next state, all it changes is the response; and it always answers
one. -/
def Obligations.OperationsChangeOnlyTheResponse : Prop :=
  ∀ (i : Instr) (s : State), ∃ t, exec i s = .next t ∧ t.rsp.isSome = true ∧
    t.pins = s.pins ∧ t.willing = s.willing ∧ t.lat = s.lat ∧ t.depthPred = s.depthPred ∧ t.pending = s.pending ∧
    t.req = s.req

/-- R130: nothing raises an exception, traps, faults, hangs or refuses to answer; a zero operand to a count, a wrap
and a carry out set no status. -/
def Obligations.NothingFaultsOrRefuses : Prop :=
  (∀ s : State, ∃ t, step s = .next t) ∧
  (∀ (i : Instr) (s : State), ∃ r, exec i s = .next { s with rsp := some r } ∧
    (i ≠ .add128 → r.st = 0) ∧ (s.req.ci.toNat ≤ 1 → r.st = 0))

/-- R56, R131: a request with a reserved opcode is answered, with ST.ILL = 1 and every other response port zero; in
every other response ST.ILL = 0. -/
def Obligations.ReservedOpcodeIsAnsweredWithIll : Prop :=
  (∀ s : State, (∀ i, s.req.op ≠ encode i) →
    s.answer = .next (s.answerWith
      { st := 0b01#2, rv := 0, rc := 0, rn := 0, rf := 0, rslen := 0, rs := Vector.replicate 128 0 })) ∧
  (∀ q : Request, (respond q).ill = true ↔ ∀ i, q.op ≠ encode i)

/-- R132: ST.CIV = 1 exactly in the response to an `ADD128` with CI[127:1] not zero; RV and RC are then those of
`c = CI[0]`. -/
def Obligations.CarryInViolationIsReported : Prop :=
  (∀ q : Request, (respond q).civ = true ↔ q.op = 0x30#8 ∧ q.ci.toNat / 2 ≠ 0) ∧
  (∀ q : Request, (respond q).civ = true →
    (respond q).rv = (respond { q with ci := BitVec.ofNat 128 (q.ci.toNat % 2) }).rv ∧
    (respond q).rc = (respond { q with ci := BitVec.ofNat 128 (q.ci.toNat % 2) }).rc)

/-- R133: ST takes one of three values; a reserved opcode gives ILL only, whatever is on CI; and each of the three
values does occur. -/
def Obligations.StatusTakesThreeValues : Prop :=
  (∀ q : Request, (respond q).st = 0b00#2 ∨ (respond q).st = 0b01#2 ∨ (respond q).st = 0b10#2) ∧
  (∀ q : Request, (∀ i, q.op ≠ encode i) → (respond q).st = 0b01#2) ∧
  (∀ v : BitVec 2, v ≠ 0b11#2 → ∃ q, (respond q).st = v)

/-- A requester that keeps the contract of R155 gets a response with no status, and only such a requester does. -/
def Obligations.ContractKeptIffNoStatus : Prop :=
  ∀ q : Request, q.honoursContract = true ↔ (respond q).clean = true

/-- R9: the word-level functions, by their bits. -/
def Obligations.WordFunctionsMeetTheirDefinitions : Prop :=
  ∀ w : Word,
    (∀ i, HighestSetBit w i → clz64 w = 63 - i) ∧ clz64 0 = 64 ∧
    (∀ i, LowestSetBit w i → ctz64 w = i) ∧ ctz64 0 = 64 ∧
    popcnt64 w = setBits w ∧ popcnt64 w ≤ 64 ∧
    (∀ i, i < 64 → (rev64 w).getLsbD i = w.getLsbD (63 - i)) ∧
    (∀ k, k < 8 → (bswap64 w).extractLsb' (8 * k) 8 = w.extractLsb' (8 * (7 - k)) 8)

/-! ## Family 0 (spec/40_construct_compare.md) -/

/-- R70, R71: `ZERO` and `MAX`. -/
def Obligations.ConstantsZeroAndMax : Prop :=
  ∀ s : State,
    decode 0x00#8 = .ok .zero ∧ exec .zero s = .next { s with rsp := some Response.zero } ∧
    decode 0x01#8 = .ok .max ∧
    exec .max s = .next { s with rsp := some { Response.zero with rv := BitVec.ofNat 128 (2 ^ 128 - 1) } }

/-- R72: `EQ` drives `RF[0]` alone, with structural equality of both words, which is equality of the values. -/
def Obligations.EqIsStructuralEquality : Prop :=
  ∀ s : State, ∃ e : Bool,
    decode 0x02#8 = .ok .eq ∧
    exec .eq s = .next { s with rsp := some { Response.zero with rf := BitVec.zeroExtend 3 (BitVec.ofBool e) } } ∧
    (e = true ↔ hi s.req.x = hi s.req.y ∧ lo s.req.x = lo s.req.y) ∧
    (e = true ↔ s.req.x.toNat = s.req.y.toNat)

/-- R73: `CMP` is lexicographic on (H, L), which is the order of the integers (R73 marks that agreement as derived);
exactly one flag is set. -/
def Obligations.CmpIsTheUnsignedOrder : Prop :=
  ∀ s : State, ∃ f : BitVec 3,
    decode 0x03#8 = .ok .cmp ∧
    exec .cmp s = .next { s with rsp := some { Response.zero with rf := f } } ∧
    (f = if (hi s.req.x).toNat < (hi s.req.y).toNat then 0b010#3
      else if (hi s.req.y).toNat < (hi s.req.x).toNat then 0b100#3
      else if (lo s.req.x).toNat < (lo s.req.y).toNat then 0b010#3
      else if (lo s.req.y).toNat < (lo s.req.x).toNat then 0b100#3
      else 0b001#3) ∧
    (f = 0b001#3 ↔ s.req.x.toNat = s.req.y.toNat) ∧
    (f = 0b010#3 ↔ s.req.x.toNat < s.req.y.toNat) ∧
    (f = 0b100#3 ↔ s.req.y.toNat < s.req.x.toNat) ∧
    (f.getLsbD 0 = (ask .eq s.req.x s.req.y s.req.ci).rf.getLsbD 0)

/-- R74: the order that `CMP` computes is total, `Zero` is its least element and `MaxUint128` its greatest. -/
def Obligations.CmpIsATotalOrder : Prop :=
  let le := fun a b : Uint128 => (ask .cmp a b 0).rf = 0b010#3 ∨ (ask .cmp a b 0).rf = 0b001#3
  (∀ a, le a a) ∧
  (∀ a b, le a b → le b a → (ask .eq a b 0).rf = 0b001#3) ∧
  (∀ a b c, le a b → le b c → le a c) ∧
  (∀ a b, le a b ∨ le b a) ∧
  (∀ a b, (ask .cmp a b 0).rf = 0b010#3 ↔ (ask .cmp b a 0).rf = 0b100#3) ∧
  (∀ a, le (ask .zero 0 0 0).rv a) ∧
  (∀ a, le a (ask .max 0 0 0).rv)

/-- R75 (two of its three sentences the spec marks as derived): the order agrees with the arithmetic. -/
def Obligations.OrderAgreesWithArithmetic : Prop :=
  (∀ x : Uint128, x ≠ maxConst → (ask .cmp x (ask .incr x 0 0).rv 0).rf = 0b010#3) ∧
  (∀ x : Uint128, x ≠ zeroConst → (ask .cmp x (ask .decr x 0 0).rv 0).rf = 0b100#3) ∧
  (∀ x y : Uint128, (ask .add128 x y zeroConst).rc = 1 ↔
    (ask .cmp (ask .add x y 0).rv x 0).rf = 0b010#3 ∧ (ask .cmp (ask .add x y 0).rv y 0).rf = 0b010#3)

/-! ## Family 1 (spec/41_bitcount.md) -/

/-- R80: `LEN`, by its 128-bit definition and by the two-word decomposition. -/
def Obligations.LenIsTheBitLength : Prop :=
  ∀ s : State, ∃ n : Nat,
    decode 0x10#8 = .ok .len ∧
    exec .len s = .next { s with rsp := some { Response.zero with rn := BitVec.ofNat 8 n } } ∧ n ≤ 128 ∧
    (s.req.x = 0 → n = 0) ∧ (∀ i, HighestSetBit s.req.x i → n = i + 1) ∧
    (n = if hi s.req.x ≠ 0 then 128 - clz64 (hi s.req.x) else if lo s.req.x ≠ 0 then 64 - clz64 (lo s.req.x) else 0) ∧
    n = 128 - (ask .clz s.req.x 0 0).rn.toNat ∧
    (s.req.x ≠ 0 → 2 ^ (n - 1) ≤ s.req.x.toNat ∧ s.req.x.toNat < 2 ^ n)

/-- R81: `CLZ`, by its 128-bit definition and by the two-word decomposition. -/
def Obligations.ClzCountsLeadingZeros : Prop :=
  ∀ s : State, ∃ n : Nat,
    decode 0x11#8 = .ok .clz ∧
    exec .clz s = .next { s with rsp := some { Response.zero with rn := BitVec.ofNat 8 n } } ∧ n ≤ 128 ∧
    (s.req.x = 0 → n = 128) ∧ (∀ i, HighestSetBit s.req.x i → n = 127 - i) ∧
    (n = if hi s.req.x ≠ 0 then clz64 (hi s.req.x) else 64 + clz64 (lo s.req.x))

/-- R82: `CTZ`, by its 128-bit definition and by the two-word decomposition. -/
def Obligations.CtzCountsTrailingZeros : Prop :=
  ∀ s : State, ∃ n : Nat,
    decode 0x12#8 = .ok .ctz ∧
    exec .ctz s = .next { s with rsp := some { Response.zero with rn := BitVec.ofNat 8 n } } ∧ n ≤ 128 ∧
    (s.req.x = 0 → n = 128) ∧ (∀ i, LowestSetBit s.req.x i → n = i) ∧
    (n = if lo s.req.x ≠ 0 then ctz64 (lo s.req.x) else 64 + ctz64 (hi s.req.x)) ∧
    (s.req.x ≠ 0 → 2 ^ n ∣ s.req.x.toNat ∧ ¬ 2 ^ (n + 1) ∣ s.req.x.toNat)

/-- R83: `POPCNT`, by its 128-bit definition and by the two-word decomposition. -/
def Obligations.PopcntCountsSetBits : Prop :=
  ∀ s : State, ∃ n : Nat,
    decode 0x13#8 = .ok .popcnt ∧
    exec .popcnt s = .next { s with rsp := some { Response.zero with rn := BitVec.ofNat 8 n } } ∧ n ≤ 128 ∧
    n = setBits s.req.x ∧ n = popcnt64 (hi s.req.x) + popcnt64 (lo s.req.x) ∧
    (s.req.x = 0 ↔ n = 0) ∧ (s.req.x = maxConst ↔ n = 128)

/-- R84: the zero-value policy of the four counts. -/
def Obligations.CountsOfTheZeroValue : Prop :=
  ∀ s : State, s.req.x = 0 →
    exec .len s = .next { s with rsp := some { Response.zero with rn := 0x00#8 } } ∧
    exec .clz s = .next { s with rsp := some { Response.zero with rn := 0x80#8 } } ∧
    exec .ctz s = .next { s with rsp := some { Response.zero with rn := 0x80#8 } } ∧
    exec .popcnt s = .next { s with rsp := some { Response.zero with rn := 0x00#8 } }

/-- R85 (which the spec marks as derived but for the first identity): the identities between the four counts, and
with the reversals. -/
def Obligations.CountIdentities : Prop :=
  let n := fun (i : Instr) (x : Uint128) => (ask i x 0 0).rn.toNat
  let v := fun (i : Instr) (x : Uint128) => (ask i x 0 0).rv
  ∀ x : Uint128,
    n .clz x + n .len x = 128 ∧
    (x ≠ 0 → n .ctz x + 1 ≤ n .len x ∧ n .popcnt x ≤ n .len x - n .ctz x ∧
      (n .popcnt x = n .len x - n .ctz x ↔
        ∀ i j k, i ≤ j → j ≤ k → x.getLsbD i = true → x.getLsbD k = true → x.getLsbD j = true) ∧
      (n .popcnt x = 1 ↔ n .ctz x + 1 = n .len x)) ∧
    n .clz (v .rev x) = n .ctz x ∧ n .ctz (v .rev x) = n .clz x ∧
    n .popcnt (v .rev x) = n .popcnt x ∧ n .popcnt (v .revb x) = n .popcnt x

/-! ## Family 2 (spec/42_reverse.md) -/

/-- R90: `REV`, by its 128-bit definition and by the two-word decomposition. -/
def Obligations.RevReversesTheBits : Prop :=
  ∀ s : State, ∃ v : Uint128,
    decode 0x20#8 = .ok .rev ∧
    exec .rev s = .next { s with rsp := some { Response.zero with rv := v } } ∧
    (∀ i, i < 128 → v.getLsbD (127 - i) = s.req.x.getLsbD i) ∧
    hi v = rev64 (lo s.req.x) ∧ lo v = rev64 (hi s.req.x)

/-- R91: `REVB`, by its 128-bit definition and by the two-word decomposition. -/
def Obligations.RevbReversesTheBytes : Prop :=
  ∀ s : State, ∃ v : Uint128,
    decode 0x21#8 = .ok .revb ∧
    exec .revb s = .next { s with rsp := some { Response.zero with rv := v } } ∧
    (∀ k, k < 16 → v.extractLsb' (8 * (15 - k)) 8 = s.req.x.extractLsb' (8 * k) 8) ∧
    hi v = bswap64 (lo s.req.x) ∧ lo v = bswap64 (hi s.req.x)

/-- R92, R93: both reversals are involutions, hence bijections, and keep the number of set bits. -/
def Obligations.ReversalsAreInvolutions : Prop :=
  ∀ i ∈ [Instr.rev, .revb],
    (∀ x : Uint128, (ask i (ask i x 0 0).rv 0 0).rv = x) ∧
    Function.Bijective (fun x : Uint128 => (ask i x 0 0).rv) ∧
    (∀ x : Uint128, (ask .popcnt (ask i x 0 0).rv 0 0).rn = (ask .popcnt x 0 0).rn)

/-- R94 (which the spec marks as derived): the reversals commute, and together reverse the bits inside each byte. -/
def Obligations.ReversalsCommute : Prop :=
  ∀ x : Uint128,
    (ask .rev (ask .revb x 0 0).rv 0 0).rv = (ask .revb (ask .rev x 0 0).rv 0 0).rv ∧
    ∀ k j, k < 16 → j < 8 →
      (ask .rev (ask .revb x 0 0).rv 0 0).rv.getLsbD (8 * k + j) = x.getLsbD (8 * k + 7 - j)

/-! ## Family 3 (spec/43_arith.md) -/

/-- R100: `ADD128`, by the exact integer equation and by the two-word decomposition, with the carry detection of a
64-bit adder (which R100 marks as derived). -/
def Obligations.Add128IsExact : Prop :=
  ∀ s : State, ∃ (sum : Uint128) (cout : Nat),
    decode 0x30#8 = .ok .add128 ∧
    (let st := if s.req.ci.toNat / 2 = 0 then 0b00#2 else 0b10#2
     exec .add128 s =
       .next { s with rsp := some { Response.zero with st := st, rv := sum, rc := BitVec.ofNat 128 cout } }) ∧
    cout ≤ 1 ∧
    cout * 2 ^ 128 + sum.toNat = s.req.x.toNat + s.req.y.toNat + s.req.ci.toNat % 2 ∧
    (let t0 := (lo s.req.x).toNat + (lo s.req.y).toNat + s.req.ci.toNat % 2
     let t1 := (hi s.req.x).toNat + (hi s.req.y).toNat + t0 / 2 ^ 64
     (lo sum).toNat = t0 % 2 ^ 64 ∧ (hi sum).toNat = t1 % 2 ^ 64 ∧ cout = t1 / 2 ^ 64 ∧
     (let w := lo s.req.x + lo s.req.y
      (t0 / 2 ^ 64 = 1 ↔ w.toNat < (lo s.req.x).toNat ∨ (lo sum).toNat < w.toNat) ∧
      ¬ (w.toNat < (lo s.req.x).toNat ∧ (lo sum).toNat < w.toNat)) ∧
     (let w := hi s.req.x + hi s.req.y
      (cout = 1 ↔ w.toNat < (hi s.req.x).toNat ∨ (hi sum).toNat < w.toNat) ∧
      ¬ (w.toNat < (hi s.req.x).toNat ∧ (hi sum).toNat < w.toNat)))

/-- R101: only bit 0 of CI enters the sum: RV and RC are the same for every value of the other bits; ST.CIV = 1
exactly where one of them is set. -/
def Obligations.OnlyBitZeroOfCarryInCounts : Prop :=
  ∀ x y ci ci' : Uint128,
    (ci.getLsbD 0 = ci'.getLsbD 0 →
      (ask .add128 x y ci).rv = (ask .add128 x y ci').rv ∧ (ask .add128 x y ci).rc = (ask .add128 x y ci').rc) ∧
    ((ask .add128 x y ci).st = 0b10#2 ↔ ∃ i, 1 ≤ i ∧ ci.getLsbD i = true) ∧
    ((ask .add128 x y ci).st = 0b00#2 ↔ ci = 0 ∨ ci = 1)

/-- R102: `ADD` is the wrapping sum, the sum of `ADD128` with carry in zero, and reports nothing. -/
def Obligations.AddWraps : Prop :=
  ∀ s : State, ∃ v : Uint128,
    decode 0x31#8 = .ok .add ∧
    exec .add s = .next { s with rsp := some { Response.zero with rv := v } } ∧
    v.toNat = (s.req.x.toNat + s.req.y.toNat) % 2 ^ 128 ∧
    (let t0 := (lo s.req.x).toNat + (lo s.req.y).toNat
     (lo v).toNat = t0 % 2 ^ 64 ∧ (hi v).toNat = ((hi s.req.x).toNat + (hi s.req.y).toNat + t0 / 2 ^ 64) % 2 ^ 64) ∧
    v = (ask .add128 s.req.x s.req.y zeroConst).rv

/-- R103: `INCR` adds one, wrapping; it is `ADD` of one. -/
def Obligations.IncrAddsOne : Prop :=
  ∀ s : State, ∃ v : Uint128,
    decode 0x32#8 = .ok .incr ∧
    exec .incr s = .next { s with rsp := some { Response.zero with rv := v } } ∧
    v.toNat = (s.req.x.toNat + 1) % 2 ^ 128 ∧
    lo v = lo s.req.x + 1 ∧
    (lo s.req.x = 0xFFFFFFFFFFFFFFFF#64 → hi v = hi s.req.x + 1) ∧
    (lo s.req.x ≠ 0xFFFFFFFFFFFFFFFF#64 → hi v = hi s.req.x) ∧
    v = (ask .add s.req.x (join 0 1) 0).rv

/-- R104: `DECR` subtracts one, wrapping; it is `ADD` of `MaxUint128`. -/
def Obligations.DecrSubtractsOne : Prop :=
  ∀ s : State, ∃ v : Uint128,
    decode 0x33#8 = .ok .decr ∧
    exec .decr s = .next { s with rsp := some { Response.zero with rv := v } } ∧
    (s.req.x ≠ 0 → v.toNat = s.req.x.toNat - 1) ∧ (s.req.x = 0 → v.toNat = 2 ^ 128 - 1) ∧
    lo v = lo s.req.x - 1 ∧
    (lo s.req.x = 0 → hi v = hi s.req.x - 1) ∧ (lo s.req.x ≠ 0 → hi v = hi s.req.x) ∧
    v = (ask .add s.req.x maxConst 0).rv

/-- R105 (whose exactness the spec marks as derived): chained `ADD128`, the RC of one transaction on the CI of the
next, adds multi-limb numbers exactly and never sets a status. -/
def Obligations.ChainedAdditionIsExact : Prop :=
  ∀ pairs : List (Uint128 × Uint128),
    limbs ((chainAdd zeroConst pairs).map Response.rv) +
        (chainCarry zeroConst (chainAdd zeroConst pairs)).toNat * 2 ^ (128 * pairs.length) =
      limbs (pairs.map Prod.fst) + limbs (pairs.map Prod.snd) ∧
    ∀ r ∈ chainAdd zeroConst pairs, r.st = 0 ∧ r.rc.toNat ≤ 1

/-- R107: the carry out with carry in zero is 1 exactly where the wrapped sum is below both operands, and (marked
derived there) each comparison alone decides it; with carry in one this fails. -/
def Obligations.OverflowDetectionIsConsistent : Prop :=
  (∀ x y : Uint128,
    ((ask .add128 x y zeroConst).rc = 1 ↔
      (ask .cmp (ask .add x y 0).rv x 0).rf = 0b010#3 ∧ (ask .cmp (ask .add x y 0).rv y 0).rf = 0b010#3) ∧
    ((ask .add128 x y zeroConst).rc = 1 ↔ (ask .cmp (ask .add x y 0).rv x 0).rf = 0b010#3) ∧
    ((ask .add128 x y zeroConst).rc = 1 ↔ (ask .cmp (ask .add x y 0).rv y 0).rf = 0b010#3)) ∧
  (∀ x : Uint128, (ask .add128 x maxConst 1).rc = 1 ∧ (ask .add128 x maxConst 1).rv = x)

/-- R108: `INCR` and `DECR` are inverse bijections, at the wrap points too. -/
def Obligations.IncrAndDecrAreInverse : Prop :=
  (∀ x : Uint128, (ask .decr (ask .incr x 0 0).rv 0 0).rv = x ∧ (ask .incr (ask .decr x 0 0).rv 0 0).rv = x) ∧
  Function.Bijective (fun x : Uint128 => (ask .incr x 0 0).rv) ∧
  Function.Bijective (fun x : Uint128 => (ask .decr x 0 0).rv) ∧
  (ask .incr maxConst 0 0).rv = zeroConst ∧ (ask .decr zeroConst 0 0).rv = maxConst

/-! ## Family 4 (spec/44_format.md) -/

/-- R110, R112: each formatting operation answers the unique canonical representation of the whole value in its
base, in the characters of R112. -/
def Obligations.FormatsAreCanonical : Prop :=
  ∀ f ∈ formats, ∀ s : State, ∃ (ds : List Nat) (r : Response),
    exec f.1 s = .next { s with rsp := some r } ∧
    Canonical f.2.1 s.req.x.toNat ds ∧ (∀ es, Canonical f.2.1 s.req.x.toNat es → es = ds) ∧
    CarriesText r (ds.map (charCode f.2.2))

/-- R111 (which the spec marks as derived): the number of characters, in each base, and its maxima. -/
def Obligations.TextLengths : Prop :=
  let n := fun (i : Instr) (x : Uint128) => (ask i x 0 0).rslen.toNat
  let len := fun x : Uint128 => (ask .len x 0 0).rn.toNat
  (∀ f ∈ formats, n f.1 0 = 1) ∧
  (∀ x : Uint128, x ≠ 0 →
    n .fmtBin x = len x ∧ n .fmtOct x = (len x + 2) / 3 ∧
    n .fmtHexl x = (len x + 3) / 4 ∧ n .fmtHexu x = (len x + 3) / 4 ∧
    10 ^ (n .fmtDec x - 1) ≤ x.toNat ∧ x.toNat < 10 ^ n .fmtDec x ∧ n .fmtStr x = n .fmtDec x) ∧
  (∀ x : Uint128, n .fmtBin x ≤ 128 ∧ n .fmtOct x ≤ 43 ∧ n .fmtDec x ≤ 39 ∧ n .fmtHexl x ≤ 32 ∧
    n .fmtHexu x ≤ 32 ∧ n .fmtStr x ≤ 39 ∧ ∀ f ∈ formats, 1 ≤ n f.1 x) ∧
  n .fmtBin maxConst = 128 ∧ n .fmtOct maxConst = 43 ∧ n .fmtDec maxConst = 39 ∧ n .fmtHexl maxConst = 32 ∧
  (∀ x : Uint128, n .fmtOct x = 43 → (ask .fmtOct x 0 0).rs[0] ∈ [0x31#8, 0x32#8, 0x33#8])

/-- R114: `FMT.BIN`, the bits of the value read off directly. -/
def Obligations.FmtBinReadsTheBits : Prop :=
  ∀ s : State, ∃ r : Response,
    decode 0x40#8 = .ok .fmtBin ∧ exec .fmtBin s = .next { s with rsp := some r } ∧
    (let n := max 1 (ask .len s.req.x 0 0).rn.toNat
     CarriesText r ((List.range n).map fun k => 0x30 + (s.req.x.getLsbD (n - 1 - k)).toNat))

/-- R115: `FMT.OCT`, the digits cut in threes from bit 0 of the whole value widened to 129 bits. -/
def Obligations.FmtOctCutsTheWholeValue : Prop :=
  ∀ s : State, ∃ r : Response,
    decode 0x41#8 = .ok .fmtOct ∧ exec .fmtOct s = .next { s with rsp := some r } ∧
    (let n := max 1 (((ask .len s.req.x 0 0).rn.toNat + 2) / 3)
     let w : BitVec 129 := s.req.x.zeroExtend 129
     CarriesText r ((List.range n).map fun k => 0x30 + (w.extractLsb' (3 * (n - 1 - k)) 3).toNat))

/-- R116: `FMT.DEC`, the decimal digits of the whole 128-bit integer. -/
def Obligations.FmtDecConvertsTheWholeValue : Prop :=
  ∀ s : State, ∃ r : Response,
    decode 0x42#8 = .ok .fmtDec ∧ exec .fmtDec s = .next { s with rsp := some r } ∧
    CarriesText r (if s.req.x = 0 then [0x30] else (Nat.digits 10 s.req.x.toNat).reverse.map (0x30 + ·))

/-- R117: `FMT.HEXL`, the digits cut in fours from bit 0, with lower-case letters. -/
def Obligations.FmtHexlCutsNibbles : Prop :=
  ∀ s : State, ∃ r : Response,
    decode 0x43#8 = .ok .fmtHexl ∧ exec .fmtHexl s = .next { s with rsp := some r } ∧
    (let n := max 1 (((ask .len s.req.x 0 0).rn.toNat + 3) / 4)
     CarriesText r ((List.range n).map fun k => charCode false (s.req.x.extractLsb' (4 * (n - 1 - k)) 4).toNat))

/-- R118: `FMT.HEXU`, as `FMT.HEXL` but for the letters, of the same length. -/
def Obligations.FmtHexuDiffersInLettersOnly : Prop :=
  ∀ s : State, ∃ r : Response,
    decode 0x44#8 = .ok .fmtHexu ∧ exec .fmtHexu s = .next { s with rsp := some r } ∧
    (let n := max 1 (((ask .len s.req.x 0 0).rn.toNat + 3) / 4)
     CarriesText r ((List.range n).map fun k => charCode true (s.req.x.extractLsb' (4 * (n - 1 - k)) 4).toNat)) ∧
    (let q := ask .fmtHexl s.req.x 0 0
     r.rslen = q.rslen ∧
     ∀ k (h : k < 128), (r.rs[k]).toNat =
       if 0x61 ≤ (q.rs[k]).toNat ∧ (q.rs[k]).toNat ≤ 0x66 then (q.rs[k]).toNat - 0x20 else (q.rs[k]).toNat)

/-- R119: `FMT.STR` answers bit for bit what `FMT.DEC` answers. -/
def Obligations.FmtStrIsFmtDec : Prop :=
  ∀ s : State, ∃ r : Response,
    decode 0x45#8 = .ok .fmtStr ∧ exec .fmtStr s = .next { s with rsp := some r } ∧
    exec .fmtDec s = .next { s with rsp := some r } ∧
    CarriesText r (if s.req.x = 0 then [0x30] else (Nat.digits 10 s.req.x.toNat).reverse.map (0x30 + ·))

/-- R120: binary and hexadecimal may be produced per word, the low word padded to its full width once the high word is
not zero. -/
def Obligations.BinaryAndHexPerWord : Prop :=
  ∀ iw ∈ [(Instr.fmtBin, 64), (Instr.fmtHexl, 16), (Instr.fmtHexu, 16)], ∀ x : Uint128,
    let t := fun v : Uint128 => (ask iw.1 v 0 0).text
    t x = if hi x = 0 then t (join 0 (lo x)) else t (join 0 (hi x)) ++ padZeros iw.2 (t (join 0 (lo x)))

/-- R121: octal may not be produced per word: for (H=1, L=0), the text is a 2 and 21 zeros, and no padding of the low
word's text makes it; octal digit 21 takes bit 63 from L and bits 64 and 65 from H. -/
def Obligations.OctalNotPerWord : Prop :=
  let t := fun v : Uint128 => (ask .fmtOct v 0 0).text
  t (join 1 0) = 0x32#8 :: List.replicate 21 0x30#8 ∧
  (∀ n, t (join 1 0) ≠ t (join 0 (hi (join 1 0))) ++ padZeros n (t (join 0 (lo (join 1 0))))) ∧
  (∀ x : Uint128, x.toNat / 8 ^ 21 % 8 =
    ((lo x).getLsbD 63).toNat + 2 * ((hi x).getLsbD 0).toNat + 4 * ((hi x).getLsbD 1).toNat)

/-- R122 (whose method the spec marks as derived): the schoolbook division of the two-digit number in base 2^64, and
decimal in groups of 19 digits. -/
def Obligations.DecimalByWordsAndByGroups : Prop :=
  (∀ (x : Uint128) (m : Nat), 0 < m → m < 2 ^ 64 →
    (let r := (hi x).toNat % m
     let t := r * 2 ^ 64 + (lo x).toNat
     x.toNat / m = (hi x).toNat / m * 2 ^ 64 + t / m ∧ x.toNat % m = t % m ∧ t / m < 2 ^ 64)) ∧
  (∀ x : Uint128,
    let t := fun v : Nat => (ask .fmtDec (BitVec.ofNat 128 v) 0 0).text
    let g0 := x.toNat % 10 ^ 19
    let g1 := x.toNat / 10 ^ 19 % 10 ^ 19
    let g2 := x.toNat / 10 ^ 38
    g2 < 10 ∧
    (ask .fmtDec x 0 0).text =
      if g2 ≠ 0 then t g2 ++ padZeros 19 (t g1) ++ padZeros 19 (t g0)
      else if g1 ≠ 0 then t g1 ++ padZeros 19 (t g0) else t g0)

/-- R123: RSLEN is 1 to 128; the characters stand at 0 to RSLEN - 1 and none of them is 0x00, which fills the rest, so
that the text can be read from RS alone up to the first 0x00. -/
def Obligations.TextCanBeReadFromRsAlone : Prop :=
  ∀ f ∈ formats, ∀ s : State, ∃ r : Response,
    exec f.1 s = .next { s with rsp := some r } ∧
    1 ≤ r.rslen.toNat ∧ r.rslen.toNat ≤ 128 ∧
    (∀ k (h : k < 128), r.rs[k] = 0x00#8 ↔ r.rslen.toNat ≤ k) ∧
    r.rs.toList.takeWhile (· != 0x00#8) = r.text ∧ r.text.length = r.rslen.toNat

/-- R124 (which the spec marks as derived): (a) reading the text back gives the value, so (b) no two values share a
text; (c) no leading zero; (d) the shorter text belongs to the smaller value, and between texts of one length the
order of the characters is that of `CMP`; (e) upper case is lower case with the letters' codes lowered; (f) the
binary length is `LEN`. -/
def Obligations.TextReadsBackToTheValue : Prop :=
  (∀ f ∈ formats, ∀ x : Uint128, readNumeral f.2.1 (ask f.1 x 0 0).text = x.toNat) ∧
  (∀ f ∈ formats, ∀ x y : Uint128, (ask f.1 x 0 0).text = (ask f.1 y 0 0).text → x = y) ∧
  (∀ f ∈ formats, ∀ x : Uint128, (ask f.1 x 0 0).rs[0] = 0x30#8 → (ask f.1 x 0 0).rslen = 1) ∧
  (∀ f ∈ formats, ∀ x y : Uint128,
    let t := fun v : Uint128 => (ask f.1 v 0 0).text
    ((ask .cmp x y 0).rf = 0b010#3 ↔
      (t x).length < (t y).length ∨ (t x).length = (t y).length ∧ List.Lex (fun a b => a.toNat < b.toNat) (t x) (t y))) ∧
  (∀ x : Uint128, (ask .fmtHexu x 0 0).text =
    (ask .fmtHexl x 0 0).text.map fun c => if 0x61 ≤ c.toNat ∧ c.toNat ≤ 0x66 then c - 0x20#8 else c) ∧
  (∀ x : Uint128, x ≠ 0 → (ask .fmtBin x 0 0).rslen = (ask .len x 0 0).rn)

/-! ## The clock edge (spec/70_reset_and_hazards.md) -/

/-- A step runs the decoded operation (spec/30_encoding.md R50, spec/00_scope.md R10): where no reset is applied and
the oldest request in flight is due and its OP selects an operation, step is exec of that operation, on the request as
sampled (R152), with the queue moved on. That each request behind it then has one cycle less to pass (`left - 1`) is the
model's reading, log entry 11 (DEDUCED). The last two clauses rest on log entry 8 (DEDUCED), which says how an operation
comes to run: `present` and `withFetchWord` put a request before a block with nothing in flight, willing, with LAT = 0
for it, and the very next step answers it. -/
def Obligations.StepRunsTheDecodedOperation : Prop :=
  (∀ (s : State) (p : InFlight) (rest : List InFlight) (i : Instr),
    s.input.rst = false → s.acceptEdge.pending = p :: rest → p.left = 0 → decode p.req.op = .ok i →
    step s = exec i { s.acceptEdge with
      req := p.req, pending := rest.map (fun q => { q with left := q.left - 1 }), rsp := none }) ∧
  (∀ (s : State) (q : Request) (i : Instr), decode q.op = .ok i →
    step (s.present q) = exec i { s with
      pins := s.pins.tail, willing := s.willing.tail, lat := (s.present q).lat, pending := [], req := q,
      rsp := none }) ∧
  (∀ (s : State) (i : Instr), ∃ t, step (s.withFetchWord 8 (encode i).toNat) = .next t ∧
    t.rsp = some (ask i s.input.req.x s.input.req.y s.input.req.ci))

/-- The combinational implementation that R152 allows: always willing (log entry 3), with LAT = 0 for the request on the
ports and nothing in flight, REQ_READY is not RST, RSP_VALID is REQ_VALID and not RST, the response is the one to the
request presented, and nothing stays in flight. That a willing block with fewer than DEPTH requests in flight is ready is
the model's reading, log entry 4 (DEDUCED); that the step shows the response of its own cycle is log entry 11. -/
def Obligations.CombinationalImplementationConforms : Prop :=
  ∀ s : State, s.willing = [] → s.latOf s.input.req = 0 → s.pending = [] →
    s.reqReady = !s.input.rst ∧
    ∃ t, step s = .next t ∧ t.rspValid = (s.input.reqValid && !s.input.rst) ∧
      (∀ r, t.rsp = some r → r = respond s.input.req) ∧
      t.pins = s.pins.tail ∧ t.willing = [] ∧ t.lat = s.lat ∧ t.pending = [] ∧ t.depthPred = s.depthPred

/-- What one cycle accepts and presents (R152): without reset, the requests in flight before and the one accepted,
in order, are the one answered, if any, and the requests in flight after; the inputs move on by one edge and LAT stays
what it is (R157). A request is accepted where it is valid, the block is willing (log entry 3) and fewer than DEPTH are in
flight (log entry 4, DEDUCED). -/
def Obligations.OneCycleAcceptsAndPresents : Prop :=
  ∀ s : State, s.input.rst = false → ∃ t, step s = .next t ∧
    t.pins = s.pins.tail ∧ t.willing = s.willing.tail ∧ t.lat = s.lat ∧ t.depthPred = s.depthPred ∧
    s.pending.map InFlight.req ++
        (if s.input.reqValid && s.isWilling && decide (s.pending.length < s.depth) then [s.input.req] else []) =
      (if t.rspValid then [t.req] else []) ++ t.pending.map InFlight.req ∧
    (∀ r, t.rsp = some r → r = respond t.req)

/-- R150: an edge with RST = 1 accepts nothing, presents nothing and discards every request in flight; from then on
every response belongs to a request accepted after it, in order, so that a discarded request is never answered and
RSP_VALID stays 0 until a request has been accepted. -/
def Obligations.ResetDiscardsWhatIsInFlight : Prop :=
  ∀ s : State, s.input.rst = true →
    s.reqReady = false ∧
    ∃ t, step s = .next t ∧ t.rspValid = false ∧ t.pending = [] ∧
      ∀ n, noReset n t →
        presentedIn n t = ((acceptedIn n t).take (presentedIn n t).length).map respond

/-- R156: responses are presented in the order in which their requests were accepted: over any run without reset,
the responses are those of the oldest of the requests in flight and accepted, in order, and the others are still in
flight, never more than DEPTH of them. -/
def Obligations.ResponsesComeInAcceptanceOrder : Prop :=
  ∀ (n : Nat) (s : State), noReset n s → ∃ t, stepsTo n s t ∧
    presentedIn n s = ((s.pending.map InFlight.req ++ acceptedIn n s).take (presentedIn n s).length).map respond ∧
    t.pending.map InFlight.req = (s.pending.map InFlight.req ++ acceptedIn n s).drop (presentedIn n s).length ∧
    (s.pending.length ≤ s.depth → t.pending.length ≤ s.depth)

/-- R153: without reset, every request in flight is answered after finitely many cycles, and REQ_READY does not stay
0 for ever. The bounds are the model's: the latencies and the requests ahead; and for REQ_READY also the edges at
which the implementation's willingness is listed (log entry 3), in a state with at most DEPTH requests in flight, which
is part of the invariant. R157: LAT is the number of cycles from the accepting edge to the response; as the model reads
it (log entry 11, DEDUCED), no request accepted now is answered in its first LAT steps, whatever is in flight, and one
that finds nothing in flight is answered by the step after these. And LAT depends on the operation and on the operands
that the format of the operation reads, on nothing else: two requests that agree there have one LAT. -/
def Obligations.EveryAcceptedRequestIsAnswered : Prop :=
  (∀ (s : State) (k : Nat) (h : k < s.pending.length), (∀ e ∈ s.pins, e.rst = false) →
    ∃ n t, 0 < n ∧ n ≤ ((s.pending.map InFlight.left).foldr max 0) + k + 1 ∧ stepsTo n s t ∧
      t.req = (s.pending[k]).req ∧ t.rsp = some (respond (s.pending[k]).req)) ∧
  (∀ s : State, (∀ e ∈ s.pins, e.rst = false) → s.pending.length ≤ s.depth →
    ∃ n t, n ≤ s.willing.length + s.longestWait + 1 ∧ stepsTo n s t ∧ t.reqReady = true) ∧
  (∀ s : State, s.accepts = true → noReset (s.latOf s.input.req) s →
    (presentedIn (s.latOf s.input.req) s).length ≤ s.pending.length) ∧
  (∀ s : State, s.accepts = true → s.pending = [] → noReset (s.latOf s.input.req + 1) s →
    ∃ t, stepsTo (s.latOf s.input.req + 1) s t ∧ t.req = s.input.req ∧ t.rsp = some (respond s.input.req)) ∧
  (∀ (s : State) (q q' : Request), q.op = q'.op →
    (∀ i, decode q.op = .ok i →
      (i.format ∈ [Format.unary, .binary, .ternary] → q.x = q'.x) ∧
      (i.format ∈ [Format.binary, .ternary] → q.y = q'.y) ∧
      (i.format = Format.ternary → q.ci = q'.ci)) →
    s.latOf q = s.latOf q')

/-- Nothing is remembered (R47, R131): what was last answered, and with which status, has no effect on what a step
accepts, presents or keeps. -/
def Obligations.EarlierResponsesHaveNoEffect : Prop :=
  ∀ (s : State) (q : Request) (r : Option Response), ∃ t u,
    step s = .next t ∧ step { s with req := q, rsp := r } = .next u ∧
    t.rsp = u.rsp ∧ t.pending = u.pending ∧ t.pins = u.pins ∧ t.willing = u.willing ∧ t.lat = u.lat ∧
    t.depthPred = u.depthPred ∧     (t.rspValid = true → t.req = u.req)

/-! ## Invariants -/

/-- Right after reset RSP_VALID = 0 and no transaction is in flight (R150, R34), and the invariant holds. -/
def Obligations.ResetMeetsTheInvariant : Prop :=
  State.reset.rspValid = false ∧ State.reset.pending = [] ∧ State.reset.Inv

/-- Every response is legal: one of three statuses, RC below 2, RN and RSLEN at most 128, at most one flag, RS filled
exactly up to RSLEN, and everything zero under ST.ILL (R25, R56, R123, R133). -/
def Obligations.EveryResponseIsLegal : Prop :=
  ∀ q : Request, (respond q).legal

/-- Every step keeps the invariant: at most DEPTH requests in flight, none with more cycles to pass than its LAT, and the
response presented is the legal one that belongs to the sampled request (R45, R47, R156, R157). -/
def Obligations.EveryStepKeepsTheInvariant : Prop :=
  ∀ s t : State, s.Inv → step s = .next t → t.Inv

/-! ## The requester (spec/30_encoding.md R59, spec/70_reset_and_hazards.md R158) -/

/-- A well-formed line whose operands hold values gives each of its names the response port that R53 and R59 assign to
it, and leaves every other temporary as it was; its status is ST of the response. A transaction with a reserved opcode
leaves every temporary as it was and has ST = 01, whatever its operands hold (R55, R56). In a program (R158) such a
transaction is listed in the end state by its status (R59), and the end temporaries are those of the program without it
(R131: nothing records a status). How a program is given as data is the model's choice, log entry 10. -/
def Obligations.LineNamesReceiveTheResultPorts : Prop :=
  (∀ (ts : Temps) (ln : Line) (q : Request), ln.wf = true → lineRequest ts ln = some q → ln.results.Nodup →
    ∃ u, runTransaction ts (.line ln) = some (u, (respond q).st) ∧
      (∀ k (h : k < ln.results.length) (h' : k < ln.instr.results.length),
        u.get (ln.results[k]) = some ((respond q).result (ln.instr.results[k]))) ∧
      (∀ n, n ∉ ln.results → u.get n = ts.get n) ∧
      decode q.op = .ok ln.instr) ∧
  (∀ (ts : Temps) (op : Byte) (x y ci : Operand) (q : Request), (∀ i, op ≠ encode i) →
    x.wf = true → y.wf = true → ci.wf = true → transactionRequest ts (.reserved op x y ci) = some q →
    q.op = op ∧ runTransaction ts (.reserved op x y ci) = some (ts, 0b01#2)) ∧
  (∀ (ts : Temps) (p r : List Transaction) (op : Byte) (x y ci : Operand) (e : EndState),
    runProgram ts (p ++ .reserved op x y ci :: r) = some e →
    (p.length + 1, 0b01#2) ∈ e.status ∧ ∃ e', runProgram ts (p ++ r) = some e' ∧ e'.temps = e.temps)
end

