-- ==== Sys2Proof/Laws/State.lean ====
section
/-! SUPPORT. One lemma per field per update of State, and per port per response. -/

namespace Sys2Proof.Machine

/-! ## answerWith -/

section
variable (s : State) (r : Response)
@[simp] theorem State.answerWith_pins : (s.answerWith r).pins = s.pins := rfl
@[simp] theorem State.answerWith_willing : (s.answerWith r).willing = s.willing := rfl
@[simp] theorem State.answerWith_lat : (s.answerWith r).lat = s.lat := rfl
@[simp] theorem State.answerWith_depthPred : (s.answerWith r).depthPred = s.depthPred := rfl
@[simp] theorem State.answerWith_pending : (s.answerWith r).pending = s.pending := rfl
@[simp] theorem State.answerWith_req : (s.answerWith r).req = s.req := rfl
@[simp] theorem State.answerWith_rsp : (s.answerWith r).rsp = some r := rfl
end

/-! ## advance, resetEdge, wait -/

section
variable (s : State)
@[simp] theorem State.advance_pins : s.advance.pins = s.pins.tail := rfl
@[simp] theorem State.advance_willing : s.advance.willing = s.willing.tail := rfl
@[simp] theorem State.advance_lat : s.advance.lat = s.lat := rfl
@[simp] theorem State.advance_depthPred : s.advance.depthPred = s.depthPred := rfl
@[simp] theorem State.advance_pending : s.advance.pending = s.pending := rfl
@[simp] theorem State.advance_req : s.advance.req = s.req := rfl
@[simp] theorem State.advance_rsp : s.advance.rsp = s.rsp := rfl
@[simp] theorem State.resetEdge_pins : s.resetEdge.pins = s.pins.tail := rfl
@[simp] theorem State.resetEdge_willing : s.resetEdge.willing = s.willing.tail := rfl
@[simp] theorem State.resetEdge_lat : s.resetEdge.lat = s.lat := rfl
@[simp] theorem State.resetEdge_depthPred : s.resetEdge.depthPred = s.depthPred := rfl
@[simp] theorem State.resetEdge_pending : s.resetEdge.pending = [] := rfl
@[simp] theorem State.resetEdge_req : s.resetEdge.req = s.req := rfl
@[simp] theorem State.resetEdge_rsp : s.resetEdge.rsp = none := rfl
@[simp] theorem State.wait_pins : s.wait.pins = s.pins := rfl
@[simp] theorem State.wait_willing : s.wait.willing = s.willing := rfl
@[simp] theorem State.wait_lat : s.wait.lat = s.lat := rfl
@[simp] theorem State.wait_depthPred : s.wait.depthPred = s.depthPred := rfl
@[simp] theorem State.wait_pending : s.wait.pending = age s.pending := rfl
@[simp] theorem State.wait_req : s.wait.req = s.req := rfl
@[simp] theorem State.wait_rsp : s.wait.rsp = none := rfl
end

/-! ## retire -/

section
variable (s : State) (p : InFlight) (rest : List InFlight)
@[simp] theorem State.retire_pins : (s.retire p rest).pins = s.pins := rfl
@[simp] theorem State.retire_willing : (s.retire p rest).willing = s.willing := rfl
@[simp] theorem State.retire_lat : (s.retire p rest).lat = s.lat := rfl
@[simp] theorem State.retire_depthPred : (s.retire p rest).depthPred = s.depthPred := rfl
@[simp] theorem State.retire_pending : (s.retire p rest).pending = age rest := rfl
@[simp] theorem State.retire_req : (s.retire p rest).req = p.req := rfl
@[simp] theorem State.retire_rsp : (s.retire p rest).rsp = none := rfl
end

/-! ## acceptEdge -/

section
variable (s : State)

@[simp] theorem State.acceptEdge_pins : s.acceptEdge.pins = s.pins.tail := by
  unfold State.acceptEdge; split <;> rfl

@[simp] theorem State.acceptEdge_willing : s.acceptEdge.willing = s.willing.tail := by
  unfold State.acceptEdge; split <;> rfl

@[simp] theorem State.acceptEdge_lat : s.acceptEdge.lat = s.lat := by
  unfold State.acceptEdge; split <;> rfl

@[simp] theorem State.acceptEdge_depthPred : s.acceptEdge.depthPred = s.depthPred := by
  unfold State.acceptEdge; split <;> rfl

@[simp] theorem State.acceptEdge_req : s.acceptEdge.req = s.req := by
  unfold State.acceptEdge; split <;> rfl

@[simp] theorem State.acceptEdge_rsp : s.acceptEdge.rsp = s.rsp := by
  unfold State.acceptEdge; split <;> rfl

theorem State.acceptEdge_pending :
    s.acceptEdge.pending =
      if s.accepts then s.pending ++ [{ req := s.input.req, left := s.latOf s.input.req }] else s.pending := by
  unfold State.acceptEdge; split <;> rfl

end

/-! ## present -/

section
variable (s : State) (q : Request)
@[simp] theorem State.present_depthPred : (s.present q).depthPred = s.depthPred := rfl
@[simp] theorem State.present_pending : (s.present q).pending = [] := rfl
@[simp] theorem State.present_req : (s.present q).req = s.req := rfl
@[simp] theorem State.present_rsp : (s.present q).rsp = s.rsp := rfl
@[simp] theorem State.present_input :
    (s.present q).input = { rst := false, reqValid := true, req := q } := rfl
@[simp] theorem State.present_isWilling : (s.present q).isWilling = true := rfl
@[simp] theorem State.present_lat :
    (s.present q).lat = { s.lat with entries := (q.asRead, 0) :: s.lat.entries } := rfl
@[simp] theorem State.present_pins_tail : (s.present q).pins.tail = s.pins.tail := rfl
@[simp] theorem State.present_willing_tail : (s.present q).willing.tail = s.willing.tail := rfl
end

/-! ## The response ports -/

@[simp] theorem Response.zero_st : Response.zero.st = 0 := rfl
@[simp] theorem Response.zero_rv : Response.zero.rv = 0 := rfl
@[simp] theorem Response.zero_rc : Response.zero.rc = 0 := rfl
@[simp] theorem Response.zero_rn : Response.zero.rn = 0 := rfl
@[simp] theorem Response.zero_rf : Response.zero.rf = 0 := rfl
@[simp] theorem Response.zero_rslen : Response.zero.rslen = 0 := rfl

@[simp] theorem Response.zero_rs_getElem (k : Nat) (h : k < 128) : Response.zero.rs[k] = 0 := by
  simp [Response.zero]

/-- The text port of a text, character by character (R123). -/
@[simp] theorem textPort_getElem (cs : List Byte) (k : Nat) (h : k < 128) : (textPort cs)[k] = cs.getD k 0 := by
  simp [textPort]

end Sys2Proof.Machine
end

