-- ==== Sys2Proof/Laws/Digits.lean ====
section
/-! SUPPORT. What the digit operations of Machine/Ops.lean do, said once (spec/44_format.md R110 to R113). -/

namespace Sys2Proof.Machine

/-- With enough fuel the loop of R113 gives the digits of the value, the least significant first. -/
theorem digitsLow_eq_digits (b fuel v : Nat) (hb : 1 < b) (hv : v < b ^ fuel) : digitsLow b fuel v = Nat.digits b v := by
  induction fuel generalizing v with
  | zero =>
    have : v = 0 := by simpa using hv
    subst this
    simp [digitsLow]
  | succ n ih =>
    rw [digitsLow]
    by_cases h : v = 0
    · simp [h]
    · have hlt : v / b < b ^ n := by
        rw [Nat.div_lt_iff_lt_mul (Nat.lt_of_succ_lt hb)]
        rwa [Nat.pow_succ] at hv
      rw [if_neg h, ih _ hlt, ← Nat.digits_def' hb (Nat.pos_of_ne_zero h)]

/-- 128 rounds of the loop are enough in every base (R113: "the loop runs at most 128 times"). -/
theorem toNat_lt_pow (b : Nat) (hb : 1 < b) (x : Uint128) : x.toNat < b ^ 128 :=
  Nat.lt_of_lt_of_le x.isLt (Nat.pow_le_pow_left hb 128)

/-- The digits of a value that is not zero. -/
theorem canonicalDigits_of_ne_zero (b : Nat) (hb : 1 < b) (x : Uint128) (hx : x ≠ 0) :
    canonicalDigits b x = (Nat.digits b x.toNat).reverse := by
  rw [canonicalDigits, if_neg hx, digitsLow_eq_digits b 128 _ hb (toNat_lt_pow b hb x)]

@[simp] theorem canonicalDigits_zero (b : Nat) : canonicalDigits b 0#128 = [0] := rfl

theorem digitsLow_length_le (b fuel v : Nat) : (digitsLow b fuel v).length ≤ fuel := by
  induction fuel generalizing v with
  | zero => simp [digitsLow]
  | succ n ih =>
    rw [digitsLow]
    split
    · simp
    · have := ih (v / b)
      simp only [List.length_cons]
      omega

/-- A text fits RS: "128 characters of RS suffice" (R111). -/
theorem fmtText_length_le (b : Nat) (a : Byte) (x : Uint128) : (fmtText b a x).length ≤ 128 := by
  unfold fmtText canonicalDigits
  split
  · simp
  · simpa using digitsLow_length_le b 128 x.toNat

/-- A text is never empty (R111: "never 0"). -/
theorem fmtText_length_pos (b : Nat) (hb : 1 < b) (a : Byte) (x : Uint128) : 0 < (fmtText b a x).length := by
  by_cases hx : x = 0
  · subst hx
    simp [fmtText]
  · have h0 : x.toNat ≠ 0 := fun h => hx (BitVec.eq_of_toNat_eq (by simpa using h))
    simp [fmtText, canonicalDigits_of_ne_zero b hb x hx, List.length_pos_iff, Nat.digits_ne_nil_iff_ne_zero, h0]

/-- Every digit of a text is a digit of its base (R110). -/
theorem canonicalDigits_lt (b : Nat) (hb : 1 < b) (x : Uint128) (d : Nat) (hd : d ∈ canonicalDigits b x) : d < b := by
  by_cases hx : x = 0
  · subst hx
    have : d = 0 := by simpa using hd
    omega
  · rw [canonicalDigits_of_ne_zero b hb x hx, List.mem_reverse] at hd
    exact Nat.digits_lt_base hb hd

/-- The digits make up the value (R110). -/
theorem ofDigits_canonicalDigits (b : Nat) (hb : 1 < b) (x : Uint128) :
    Nat.ofDigits b (canonicalDigits b x).reverse = x.toNat := by
  by_cases hx : x = 0
  · subst hx
    simp
  · rw [canonicalDigits_of_ne_zero b hb x hx, List.reverse_reverse, Nat.ofDigits_digits]

/-- The character of a digit, by its code, for the two letter cases of R112. -/
theorem digitChar_toNat (upper : Bool) (d : Nat) (hd : d < 16) :
    (digitChar (if upper then upperA else lowerA) d).toNat = charCode upper d := by
  revert d
  cases upper <;> decide

end Sys2Proof.Machine
end

