-- ==== Sys2Proof/Laws/Handshake.lean ====
section
/-! SUPPORT. What one clock edge, the table of latencies, and one transaction of a program can do, said once (spec/70_reset_and_hazards.md R150, R152, R156, R157, R158). -/

namespace Sys2Proof.Machine

@[simp] theorem age_nil : age [] = [] := rfl

@[simp] theorem age_cons (p : InFlight) (q : List InFlight) :
    age (p :: q) = { p with left := p.left - 1 } :: age q := rfl

@[simp] theorem age_length (q : List InFlight) : (age q).length = q.length := by simp [age]

/-- Waiting does not change what is in flight, only how long it still takes. -/
@[simp] theorem age_req (q : List InFlight) : (age q).map InFlight.req = q.map InFlight.req := by
  simp [age, Function.comp_def]

/-- No request is accepted under RST (R150). -/
theorem not_accepts_of_rst (s : State) (h : s.input.rst = true) : s.accepts = false := by
  simp [State.accepts, State.reqReady, h]

/-- A request is accepted only where fewer than DEPTH are in flight (R156). -/
theorem pending_lt_of_accepts (s : State) (h : s.accepts = true) : s.pending.length < s.depth := by
  simp only [State.accepts, State.reqReady, Bool.and_eq_true, decide_eq_true_eq] at h
  exact h.2.2

/-- The three ways a step goes: a reset edge; no request due; or the oldest request in flight is answered. -/
theorem step_cases (s : State) :
    (s.input.rst = true ∧ step s = .next s.resetEdge) ∨
    (s.input.rst = false ∧ (∀ p rest, s.acceptEdge.pending = p :: rest → p.left ≠ 0) ∧
      step s = .next s.acceptEdge.wait) ∨
    (s.input.rst = false ∧ ∃ p rest, s.acceptEdge.pending = p :: rest ∧ p.left = 0 ∧
      step s = (s.acceptEdge.retire p rest).answer) := by
  unfold step State.clockEdge
  by_cases hr : s.input.rst = true
  · exact .inl ⟨hr, if_pos hr⟩
  · have hf : s.input.rst = false := by simpa using hr
    rw [if_neg hr]
    unfold State.serve
    cases hp : s.acceptEdge.pending with
    | nil => exact .inr (.inl ⟨hf, by simp, rfl⟩)
    | cons p rest =>
      by_cases h0 : p.left = 0
      · exact .inr (.inr ⟨hf, p, rest, rfl, h0, if_pos h0⟩)
      · refine .inr (.inl ⟨hf, ?_, if_neg h0⟩)
        rintro p' rest' h
        cases h
        exact h0

/-- A request that agrees in what the block reads has the same LAT (R157). -/
theorem latencyOf_congr (l : Config.Latency Request) (q q' : Request) (h : q.asRead = q'.asRead) :
    latencyOf l q = latencyOf l q' := by
  simp [latencyOf, h]

/-- A request for which the table has an entry first in the list. -/
theorem latencyOf_cons (l : Config.Latency Request) (k q : Request) (n : Nat) :
    latencyOf { l with entries := (k, n) :: l.entries } q = if k = q.asRead then n else latencyOf l q := by
  by_cases h : k = q.asRead <;> simp [latencyOf, h]

/-- LAT is a matter of the table alone: two states with one table have one LAT. -/
theorem State.latOf_congr (s t : State) (q : Request) (h : t.lat = s.lat) : t.latOf q = s.latOf q := by
  simp [State.latOf, h]

/-- Presenting a request sets its LAT to zero. -/
@[simp] theorem State.present_latOf (s : State) (q : Request) : (s.present q).latOf q = 0 := by
  simp [State.latOf, latencyOf_cons]

/-- The tables cover every LAT that R157 allows: one that depends on what the block reads agrees with some table on any
finite number of requests. -/
theorem exists_latency (f : Request → Nat) (hf : ∀ q q' : Request, q.asRead = q'.asRead → f q = f q')
    (qs : List Request) : ∃ l : Config.Latency Request, ∀ q ∈ qs, latencyOf l q = f q := by
  induction qs with
  | nil => exact ⟨Config.Latency.zero, by simp⟩
  | cons k ks ih =>
    obtain ⟨l, hl⟩ := ih
    refine ⟨{ l with entries := (k.asRead, f k) :: l.entries }, fun q hq => ?_⟩
    rw [latencyOf_cons]
    split
    · exact hf _ _ ‹_›
    · rcases List.mem_cons.mp hq with rfl | hq
      · exact absurd rfl ‹_›
      · exact hl q hq

/-- When a transaction runs, and what it gives: the temporaries with its results, and ST of the response. -/
theorem runTransaction_eq_some (ts u : Temps) (tr : Transaction) (st : BitVec 2) :
    runTransaction ts tr = some (u, st) ↔
      tr.wf = true ∧ ∃ q, transactionRequest ts tr = some q ∧ u = transactionReceive tr (respond q) ts ∧
        st = (respond q).st := by
  unfold runTransaction
  split
  · rename_i h
    cases transactionRequest ts tr with
    | none => exact ⟨nofun, fun ⟨_, _, h, _⟩ => nomatch h⟩
    | some q =>
      exact ⟨fun h' => by cases h'; exact ⟨h, q, rfl, rfl, rfl⟩, fun ⟨_, _, hq, hu, hs⟩ => by cases hq; rw [hu, hs]⟩
  · rename_i h
    exact ⟨nofun, fun h' => absurd h'.1 h⟩

/-- What a program from number `k` on gives, its first transaction at a time. -/
theorem runFrom_cons_eq_some (k : Nat) (ts : Temps) (tr : Transaction) (p : List Transaction) (e : EndState) :
    runFrom k ts (tr :: p) = some e ↔
      ∃ u st d, runTransaction ts tr = some (u, st) ∧ runFrom (k + 1) u p = some d ∧ e.temps = d.temps ∧
        e.status = (if st = 0 then [] else [(k, st)]) ++ d.status := by
  obtain ⟨_, _⟩ := e
  simp only [runFrom]
  cases h : runTransaction ts tr with
  | none => simp
  | some v => cases hr : runFrom (k + 1) v.1 p <;> aesop

/-- The two ways an answer goes: the operation that OP selects, or the report of a reserved opcode. -/
theorem answer_cases (s : State) :
    (∃ i, decode s.req.op = .ok i ∧ s.answer = exec i s) ∨
    (∃ e, decode s.req.op = .error e ∧ s.answer = .next (s.answerWith reservedResponse)) := by
  unfold State.answer
  cases h : decode s.req.op with
  | ok i => exact .inl ⟨i, rfl, rfl⟩
  | error e => exact .inr ⟨e, rfl, rfl⟩

end Sys2Proof.Machine
end

