-- ==== Sys2Proof/Laws/PerInstr.lean ====
section
/-! SUPPORT. What is said of every operation as syntax, one lemma per constructor: the nibbles of its code (spec/30_encoding.md R50) and that it names a result (R53). -/

namespace Sys2Proof.Laws.Nibbles

/-- OP[7:4] is the family, OP[3:0] the function (R50), and some result port is driven (R53). -/
def Statement (i : Instr) : Prop :=
  (encode i).extractLsb' 4 4 = i.family ∧ (encode i).extractLsb' 0 4 = i.function ∧ i.results ≠ []

theorem zero : Statement .zero := by unfold Statement; decide
theorem max : Statement .max := by unfold Statement; decide
theorem eq : Statement .eq := by unfold Statement; decide
theorem cmp : Statement .cmp := by unfold Statement; decide
theorem len : Statement .len := by unfold Statement; decide
theorem clz : Statement .clz := by unfold Statement; decide
theorem ctz : Statement .ctz := by unfold Statement; decide
theorem popcnt : Statement .popcnt := by unfold Statement; decide
theorem rev : Statement .rev := by unfold Statement; decide
theorem revb : Statement .revb := by unfold Statement; decide
theorem add128 : Statement .add128 := by unfold Statement; decide
theorem add : Statement .add := by unfold Statement; decide
theorem incr : Statement .incr := by unfold Statement; decide
theorem decr : Statement .decr := by unfold Statement; decide
theorem fmtBin : Statement .fmtBin := by unfold Statement; decide
theorem fmtOct : Statement .fmtOct := by unfold Statement; decide
theorem fmtDec : Statement .fmtDec := by unfold Statement; decide
theorem fmtHexl : Statement .fmtHexl := by unfold Statement; decide
theorem fmtHexu : Statement .fmtHexu := by unfold Statement; decide
theorem fmtStr : Statement .fmtStr := by unfold Statement; decide

end Sys2Proof.Laws.Nibbles
end

