-- ==== Sys2Proof/Laws/Words.lean ====
section
/-! SUPPORT. What the word operations of Machine/Ops.lean do, said once: words of a value, the wirings, the counts, and the adder. -/

namespace Sys2Proof.Machine

/-! ## Words of a value -/

theorem getLsbD_hi (v : Uint128) (i : Nat) : (hi v).getLsbD i = (decide (i < 64) && v.getLsbD (64 + i)) := by
  simp [hi]

theorem getLsbD_lo (v : Uint128) (i : Nat) : (lo v).getLsbD i = (decide (i < 64) && v.getLsbD i) := by
  simp [lo]

theorem getLsbD_join (h l : Word) (i : Nat) :
    (join h l).getLsbD i = if i < 64 then l.getLsbD i else h.getLsbD (i - 64) := by
  simp only [join, BitVec.getLsbD_append]

@[simp] theorem hi_join (h l : Word) : hi (join h l) = h := by
  apply BitVec.eq_of_getLsbD_eq
  intro i hi'
  rw [getLsbD_hi, getLsbD_join]
  simp [hi']

@[simp] theorem lo_join (h l : Word) : lo (join h l) = l := by
  apply BitVec.eq_of_getLsbD_eq
  intro i hi'
  rw [getLsbD_lo, getLsbD_join]
  simp [hi']

@[simp] theorem join_hi_lo (v : Uint128) : join (hi v) (lo v) = v := by
  apply BitVec.eq_of_getLsbD_eq
  intro i hi'
  rw [getLsbD_join, getLsbD_hi, getLsbD_lo]
  by_cases h : i < 64
  · simp [h]
  · have h1 : i - 64 < 64 := by omega
    have h2 : 64 + (i - 64) = i := by omega
    simp [h, h1, h2]

/-- A value is fixed by its two words (R7, R21). -/
theorem words_ext {v w : Uint128} (hh : hi v = hi w) (hl : lo v = lo w) : v = w := by
  rw [← join_hi_lo v, ← join_hi_lo w, hh, hl]

theorem toNat_join (h l : Word) : (join h l).toNat = h.toNat * 2 ^ 64 + l.toNat := by
  simp only [join, BitVec.toNat_append]
  rw [← Nat.shiftLeft_add_eq_or_of_lt l.isLt, Nat.shiftLeft_eq]

/-- "The represented value equals H · 2^64 + L" (R21). -/
theorem toNat_words (v : Uint128) : v.toNat = (hi v).toNat * 2 ^ 64 + (lo v).toNat := by
  conv_lhs => rw [← join_hi_lo v]
  exact toNat_join _ _

/-! ## Wirings -/

theorem getLsbD_wired (f : Nat → Bool) (n i : Nat) : (wired f n).getLsbD i = (decide (i < n) && f i) := by
  induction n with
  | zero => simp [wired]
  | succ n ih =>
    rw [wired, BitVec.getLsbD_cons, ih]
    by_cases h : i = n
    · simp [h]
    · have : i < n + 1 ↔ i < n := by omega
      simp [h, this]

theorem getLsbD_rev64 (w : Word) (i : Nat) : (rev64 w).getLsbD i = (decide (i < 64) && w.getLsbD (63 - i)) :=
  getLsbD_wired _ _ _

theorem getLsbD_bswap64 (w : Word) (i : Nat) :
    (bswap64 w).getLsbD i = (decide (i < 64) && w.getLsbD (8 * (7 - i / 8) + i % 8)) :=
  getLsbD_wired _ _ _

/-! ## Counts of a word -/

/-- Where the highest set bit below `n` is `i`, the count stops there. -/
theorem leadingZerosFrom_of_highest (w : Word) (n i : Nat) (hin : i < n) (hi : w.getLsbD i = true)
    (hz : ∀ j, i < j → j < n → w.getLsbD j = false) : leadingZerosFrom w n = n - 1 - i := by
  induction n with
  | zero => omega
  | succ n ih =>
    rw [leadingZerosFrom]
    by_cases h : i = n
    · subst h; simp [hi]
    · rw [hz n (by omega) (by omega), ih (by omega) fun j h1 h2 => hz j h1 (by omega)]
      simp; omega

theorem leadingZerosFrom_zero (n : Nat) : leadingZerosFrom 0 n = n := by
  induction n with
  | zero => rfl
  | succ n ih => rw [leadingZerosFrom, ih]; simp; omega

theorem leadingZerosFrom_le (w : Word) (n : Nat) : leadingZerosFrom w n ≤ n := by
  induction n with
  | zero => exact Nat.le_refl 0
  | succ n ih => rw [leadingZerosFrom]; split <;> omega

/-- Where the lowest set bit from `64 - n` on is `i`, the count stops there. -/
theorem trailingZerosFrom_of_lowest (w : Word) (n i : Nat) (hn : n ≤ 64) (h1 : 64 - n ≤ i) (h2 : i < 64)
    (hi : w.getLsbD i = true) (hz : ∀ j, 64 - n ≤ j → j < i → w.getLsbD j = false) :
    trailingZerosFrom w n = i - (64 - n) := by
  induction n with
  | zero => omega
  | succ n ih =>
    rw [trailingZerosFrom]
    by_cases h : i = 64 - (n + 1)
    · rw [← h]; simp [hi]
    · rw [hz (64 - (n + 1)) (by omega) (by omega),
        ih (by omega) (by omega) fun j h3 h4 => hz j (by omega) h4]
      simp; omega

theorem trailingZerosFrom_zero (n : Nat) : trailingZerosFrom 0 n = n := by
  induction n with
  | zero => rfl
  | succ n ih => rw [trailingZerosFrom, ih]; simp; omega

theorem trailingZerosFrom_le (w : Word) (n : Nat) : trailingZerosFrom w n ≤ n := by
  induction n with
  | zero => exact Nat.le_refl 0
  | succ n ih => rw [trailingZerosFrom]; split <;> omega

/-- The recursive count is the number of set bits below `n`. -/
theorem onesBelow_eq_countP (w : Word) (n : Nat) :
    onesBelow w n = (List.range n).countP fun i => w.getLsbD i := by
  induction n with
  | zero => rfl
  | succ n ih =>
    rw [onesBelow, ih, List.range_succ, List.countP_append]
    cases h : w.getLsbD n <;> simp [h]

/-! ## The adder -/

/-- One word of the adder is exact: the word and its carry are the sum (R100). -/
theorem addWord_exact (a b : Word) (c : Nat) :
    (addWord a b c).2 * 2 ^ 64 + (addWord a b c).1.toNat = a.toNat + b.toNat + c := by
  simp only [addWord, BitVec.toNat_ofNat]
  omega

theorem addWord_carry_le (a b : Word) (c : Nat) (hc : c ≤ 1) : (addWord a b c).2 ≤ 1 := by
  have ha := a.isLt
  have hb := b.isLt
  simp only [addWord]
  omega

/-- The two-word adder is exact: the sum and its carry are X + Y + c (R100). -/
theorem addCarry_exact (x y : Uint128) (c : Nat) :
    (addCarry x y c).2 * 2 ^ 128 + (addCarry x y c).1.toNat = x.toNat + y.toNat + c := by
  have hl := addWord_exact (lo x) (lo y) c
  have hh := addWord_exact (hi x) (hi y) (addWord (lo x) (lo y) c).2
  rw [toNat_words x, toNat_words y]
  simp only [addCarry, toNat_join]
  have hm := congrArg (· * 2 ^ 64) hh
  linarith

theorem addCarry_carry_le (x y : Uint128) (c : Nat) (hc : c ≤ 1) : (addCarry x y c).2 ≤ 1 :=
  addWord_carry_le _ _ _ (addWord_carry_le _ _ _ hc)

theorem carryIn_eq_mod (ci : Uint128) : carryIn ci = ci.toNat % 2 := by
  have h : ci.getLsbD 0 = decide (ci.toNat % 2 = 1) := by
    simp [BitVec.getLsbD, Nat.testBit_zero]
  rw [carryIn, h]
  by_cases h1 : ci.toNat % 2 = 1
  · simp [h1]
  · have h2 : ci.toNat % 2 = 0 := by omega
    simp [h2]

/-- The contract of CI is broken exactly where a bit above bit 0 is set (R101). -/
theorem carryInDirty_iff (ci : Uint128) : carryInDirty ci = true ↔ ci.toNat / 2 ≠ 0 := by
  have hlt := ci.isLt
  have h : (ci.extractLsb' 1 127).toNat = ci.toNat / 2 := by
    simp [BitVec.extractLsb'_toNat, Nat.shiftRight_eq_div_pow]
    omega
  rw [carryInDirty, bne_iff_ne, ne_eq, ← BitVec.toNat_inj, h]
  simp

end Sys2Proof.Machine
end

