-- ==== Sys2Proof/Machine/Assembler.lean ====
section
/-! DEFINITION. The assembler syntax as text: mnemonics (spec/30_encoding.md R52), the source's names (R61), and how a transaction line is written (R59). -/

namespace Sys2Proof.Machine

/-- The mnemonic of each operation (R52). -/
def mnemonic : Instr → String
  | .zero => "ZERO"
  | .max => "MAX"
  | .eq => "EQ"
  | .cmp => "CMP"
  | .len => "LEN"
  | .clz => "CLZ"
  | .ctz => "CTZ"
  | .popcnt => "POPCNT"
  | .rev => "REV"
  | .revb => "REVB"
  | .add128 => "ADD128"
  | .add => "ADD"
  | .incr => "INCR"
  | .decr => "DECR"
  | .fmtBin => "FMT.BIN"
  | .fmtOct => "FMT.OCT"
  | .fmtDec => "FMT.DEC"
  | .fmtHexl => "FMT.HEXL"
  | .fmtHexu => "FMT.HEXU"
  | .fmtStr => "FMT.STR"

/-- The name the source gives each operation; equality, ordering and the formatting operations have no function name
there (R61). -/
def sourceName : Instr → Option String
  | .zero => some "Zero"
  | .max => some "MaxUint128"
  | .eq => none
  | .cmp => none
  | .len => some "Len"
  | .clz => some "LeadingZeros"
  | .ctz => some "TrailingZeros"
  | .popcnt => some "OnesCount"
  | .rev => some "Reverse"
  | .revb => some "ReverseBytes"
  | .add128 => some "Add128"
  | .add => some "Add"
  | .incr => some "Incr"
  | .decr => some "Decr"
  | .fmtBin => none
  | .fmtOct => none
  | .fmtDec => none
  | .fmtHexl => none
  | .fmtHexu => none
  | .fmtStr => none

/-- A number in hexadecimal, `0x…` (R59). -/
def hexText (n : Nat) : List Char := '0' :: 'x' :: Nat.toDigits 16 n

/-- A temporary, `%` and its name (R59). -/
def tempText (n : Nat) : List Char := '%' :: Nat.toDigits 10 n

/-- An operand: a name, one hexadecimal number, or the source's pair (R59). -/
def operandText : Operand → List Char
  | .temp n => tempText n
  | .lit v => hexText v
  | .pair h l => "(H=".toList ++ hexText h ++ ", L=".toList ++ hexText l ++ ")".toList

/-- A comma-separated list (R59). -/
def commaList : List (List Char) → List Char
  | [] => []
  | [t] => t
  | t :: u :: rest => t ++ ", ".toList ++ commaList (u :: rest)

/-- A transaction line, `<results> = <MNEMONIC> <operands>` (R59). -/
def lineText (ln : Line) : List Char :=
  commaList (ln.results.map tempText) ++ " = ".toList ++ (mnemonic ln.instr).toList ++
    (if ln.operands.isEmpty then [] else ' ' :: commaList (ln.operands.map operandText))

/-- An operation code in two hexadecimal digits, `0x34` (R52, R55). -/
def codeText (op : Byte) : List Char :=
  "0x".toList ++ [Nat.digitChar (op.toNat / 16), Nat.digitChar (op.toNat % 16)]

/-- A transaction: a line (R59), or a reserved opcode as program 5 of spec/95_test_vectors.md writes it. -/
def transactionText : Transaction → List Char
  | .line ln => lineText ln
  | .reserved op x y ci =>
    "(reserved) OP ".toList ++ codeText op ++ " with X = ".toList ++ operandText x ++ ", Y = ".toList ++ operandText y ++
      ", CI = ".toList ++ operandText ci

end Sys2Proof.Machine
end

