-- ==== Sys2Proof/Tests/Slice0.lean ====
section
/-! SUPPORT. Tests, their expected results from spec/95_test_vectors.md (the id stands in the name or the comment), and a witness for each statement that has hypotheses. -/

namespace Sys2Proof.Tests

open Sys2Proof.Machine

/-! ## Well-formedness: each check refuses an ill-formed line -/

theorem test_wf_accepts_add128 : Line.wf ⟨[0, 1], .add128, [.temp 2, .lit 5, .pair 0 1]⟩ = true := by decide

theorem test_wf_operands_too_few : Line.wf ⟨[0], .add, [.temp 1]⟩ = false := by decide

theorem test_wf_operands_too_many : Line.wf ⟨[0], .zero, [.temp 1]⟩ = false := by decide

theorem test_wf_results_too_few : Line.wf ⟨[0], .add128, [.temp 1, .temp 2, .temp 3]⟩ = false := by decide

theorem test_wf_literal_too_wide : Line.wf ⟨[0], .len, [.lit (2 ^ 128)]⟩ = false := by decide

theorem test_wf_high_word_too_wide : Line.wf ⟨[0], .len, [.pair (2 ^ 64) 0]⟩ = false := by decide

theorem test_wf_low_word_too_wide : Line.wf ⟨[0], .len, [.pair 0 (2 ^ 64)]⟩ = false := by decide

theorem test_wf_reserved : Transaction.wf (.reserved 0x34 (.temp 0) (.lit 1) (.pair 0 1)) = true := by decide

theorem test_wf_reserved_code : Transaction.wf (.reserved 0x33 (.lit 0) (.lit 0) (.lit 0)) = false := by decide

theorem test_wf_reserved_operands :
    Transaction.wf (.reserved 0x34 (.lit (2 ^ 128)) (.lit 0) (.lit 0)) = false ∧
      Transaction.wf (.reserved 0x34 (.lit 0) (.pair 0 (2 ^ 64)) (.lit 0)) = false ∧
      Transaction.wf (.reserved 0x34 (.lit 0) (.lit 0) (.pair (2 ^ 64) 0)) = false := by decide

theorem test_wf_transaction_line : Transaction.wf (.line ⟨[0], .add, [.temp 1]⟩) = false := by decide

/-! ## Decoding: words written out from R52 -/

theorem test_decode_family0 :
    decode 0b00000000#8 = .ok .zero ∧ decode 0b00000001#8 = .ok .max ∧ decode 0b00000010#8 = .ok .eq ∧
      decode 0b00000011#8 = .ok .cmp := by decide

theorem test_decode_family1 :
    decode 0b00010000#8 = .ok .len ∧ decode 0b00010001#8 = .ok .clz ∧ decode 0b00010010#8 = .ok .ctz ∧
      decode 0b00010011#8 = .ok .popcnt := by decide

theorem test_decode_family2 : decode 0b00100000#8 = .ok .rev ∧ decode 0b00100001#8 = .ok .revb := by decide

theorem test_decode_family3 :
    decode 0b00110000#8 = .ok .add128 ∧ decode 0b00110001#8 = .ok .add ∧ decode 0b00110010#8 = .ok .incr ∧
      decode 0b00110011#8 = .ok .decr := by decide

theorem test_decode_family4 :
    decode 0b01000000#8 = .ok .fmtBin ∧ decode 0b01000001#8 = .ok .fmtOct ∧ decode 0b01000010#8 = .ok .fmtDec ∧
      decode 0b01000011#8 = .ok .fmtHexl ∧ decode 0b01000100#8 = .ok .fmtHexu ∧
      decode 0b01000101#8 = .ok .fmtStr := by decide

theorem test_decode_reserved_edges :
    [0x04#8, 0x0F#8, 0x14#8, 0x1F#8, 0x22#8, 0x2F#8, 0x34#8, 0x3F#8, 0x46#8, 0x4F#8, 0x50#8, 0xFF#8].all
      (fun op => decide (decode op = .error (.reserved op))) = true := by decide

theorem test_decode_bytes_one_only :
    decodeBytes [] = .error .missing ∧ decodeBytes [0x10#8, 0x11#8] = .error .trailing := by decide

/-- No two rows of the table select the same code. -/
theorem test_rows_disjoint :
    opcodeRows.Pairwise (fun a b => a.pattern ≠ b.pattern ∧ a.mask = 0xFF#8 ∧ b.mask = 0xFF#8) := by decide

/-! ## One step from reset per operation -/

/-- The response of the step that accepts this request, from the state after reset. -/
def stepResponse (q : Request) : Option Response :=
  match step (State.reset.present q) with
  | .next t => t.rsp
  | .fault _ => none
  | .refused _ => none

/-- One port of that response. -/
def port {α : Type} (f : Response → α) (op : Byte) (x y ci : Uint128) : Option α :=
  (stepResponse { op := op, x := x, y := y, ci := ci }).map f

/-- A value as the spec writes it, `(H=…, L=…)`. -/
def val (h l : Nat) : Uint128 := join (BitVec.ofNat 64 h) (BitVec.ofNat 64 l)

/-- V-C0a, V-S10. -/
theorem test_zero : port Response.rv 0x00 (val 9 9) 1 1 = some (val 0 0) := by decide

/-- V-C0b. -/
theorem test_max : port Response.rv 0x01 0 0 0 = some (val 0xffffffffffffffff 0xffffffffffffffff) := by decide

/-- V-C2: EQ does not compute the order. -/
theorem test_eq_unequal : port Response.rf 0x02 (val 0 0) (val 0 1) 0 = some 0b000#3 := by decide

/-- V-C6. -/
theorem test_eq_equal : port Response.rf 0x02 (val 1 0) (val 1 0) 7 = some 0b001#3 := by decide

/-- V-C4: H decides, whatever L is. -/
theorem test_cmp_high_decides : port Response.rf 0x03 (val 1 0) (val 0 0xffffffffffffffff) 0 = some 0b100#3 := by
  decide

/-- V-C9 the other way round: the comparison is unsigned. -/
theorem test_cmp_unsigned :
    port Response.rf 0x03 (val 0x7fffffffffffffff 0xffffffffffffffff) (val 0x8000000000000000 0) 0 = some 0b010#3 := by
  decide

/-- V-B7. -/
theorem test_len_seam : port Response.rn 0x10 (val 1 0) 0 0 = some 65 := by decide

/-- V-B11: needs all 8 bits. -/
theorem test_len_max : port Response.rn 0x10 (val 0xffffffffffffffff 0xffffffffffffffff) 0 0 = some 128 := by decide

/-- V-B1, V-S9. -/
theorem test_clz_zero : port Response.rn 0x11 0 (val 1 1) 1 = some 128 := by decide

/-- W2. -/
theorem test_clz_high : port Response.rn 0x11 (val 1 0x456) 0 0 = some 63 := by decide

/-- V-B9. -/
theorem test_ctz_top_bit : port Response.rn 0x12 (val 0x8000000000000000 0) 0 0 = some 127 := by decide

/-- W1. -/
theorem test_ctz_low : port Response.rn 0x12 (val 0 0x456) 0 0 = some 1 := by decide

/-- V-B19. -/
theorem test_popcnt : port Response.rn 0x13 (val 0xffffffffffffffff 0xfffffffffffffffe) 0 0 = some 127 := by decide

/-- V-R7. -/
theorem test_rev : port Response.rv 0x20 (val 0x0123456789abcdef 0xfedcba9876543210) 0 0 =
    some (val 0x084c2a6e195d3b7f 0xf7b3d591e6a2c480) := by decide +kernel

/-- V-R8. -/
theorem test_revb : port Response.rv 0x21 (val 0x0011223344556677 0x8899aabbccddeeff) 0 0 =
    some (val 0xffeeddccbbaa9988 0x7766554433221100) := by decide +kernel

/-- V-A11: the carry in ripples through a word of all ones. -/
theorem test_add128_ripple :
    port (fun r => (r.rv, r.rc, r.st)) 0x30 (val 0xffffffffffffffff 0) (val 0 0xffffffffffffffff) 1 =
      some (0, 1, 0b00#2) := by decide

/-- V-A14: a dirty carry in adds nothing and is reported. -/
theorem test_add128_dirty_carry :
    port (fun r => (r.rv, r.rc, r.st)) 0x30 (val 0 5) (val 0 7) (val 0 2) = some (val 0 0xc, 0, 0b10#2) := by decide

/-- V-A28. -/
theorem test_add_seam :
    port Response.rv 0x31 (val 0xdeadbeef 0x0123456789abcdef) (val 1 0xfedcba9876543211) 0 =
      some (val 0xdeadbef1 0) := by decide

/-- V-S8: ADD does not read CI, and reports nothing. -/
theorem test_add_ignores_carry_in :
    port (fun r => (r.rv, r.st)) 0x31 (val 0 5) (val 0 7) maxConst = some (val 0 0xc, 0b00#2) := by decide

/-- V-A34. -/
theorem test_incr_seam : port Response.rv 0x32 (val 1 0xffffffffffffffff) 0 0 = some (val 2 0) := by decide

/-- V-A36. -/
theorem test_incr_wraps : port (fun r => (r.rv, r.rc)) 0x32 maxConst 0 0 = some (0, 0) := by decide

/-- V-A37. -/
theorem test_decr_seam : port Response.rv 0x33 (val 0xffffffffffffffff 0) 0 0 =
    some (val 0xfffffffffffffffe 0xffffffffffffffff) := by decide

/-- V-A30. -/
theorem test_decr_wraps : port (fun r => (r.rv, r.rc)) 0x33 0 0 0 = some (maxConst, 0) := by decide

/-- V-F6: its length and three of its characters. -/
theorem test_fmt_bin : port (fun r => (r.rslen, r.rs[0], r.rs[1], r.rs[4])) 0x40 (val 0 0x456) 0 0 =
    some (11, 0x31, 0x30, 0x31) := by decide

/-- V-F17: the only length that fills RS. -/
theorem test_fmt_bin_fills : port (fun r => (r.rslen, r.rs[127])) 0x40 maxConst 0 0 = some (128, 0x31) := by
  decide +kernel

/-- V-F9: the octal seam. -/
theorem test_fmt_oct_seam : port (fun r => (r.rslen, r.rs[0], r.rs[1])) 0x41 (val 1 0x456) 0 0 =
    some (22, 0x32, 0x30) := by decide

/-- V-F6, character level. -/
theorem test_fmt_dec : port (fun r => (r.rslen, r.rs[0], r.rs[2], r.rs[3], r.rs[4])) 0x42 (val 0 0x456) 0 0 =
    some (4, 0x31, 0x31, 0x30, 0x00) := by decide

/-- V-F1: zero is one character. -/
theorem test_fmt_dec_zero : port (fun r => (r.rslen, r.rs[0], r.rs[1])) 0x42 0 0 0 = some (1, 0x30, 0x00) := by decide

/-- V-F4. -/
theorem test_fmt_hexl : port (fun r => (r.rslen, r.rs[0])) 0x43 (val 0 0xa) 0 0 = some (1, 0x61) := by decide

/-- V-F9: the low word keeps its leading zeros. -/
theorem test_fmt_hexl_seam : port (fun r => (r.rslen, r.rs[1], r.rs[14])) 0x43 (val 1 0x456) 0 0 =
    some (17, 0x30, 0x34) := by decide

/-- V-F4. -/
theorem test_fmt_hexu : port (fun r => (r.rslen, r.rs[0])) 0x44 (val 0 0xa) 0 0 = some (1, 0x41) := by decide

/-- V-F6. -/
theorem test_fmt_str : port (fun r => (r.rslen, r.rs[3])) 0x45 (val 0 0x456) 0 0 = some (4, 0x30) := by decide

/-- V-S3: a reserved opcode reads no operand. -/
theorem test_reserved :
    stepResponse ⟨0x34, val 0 5, val 0 7, maxConst⟩ = some { Response.zero with st := 0b01#2 } := by decide +kernel

/-! ## The clock edge -/

/-- Two requests in flight, the oldest due, and a reset pin. -/
def busy (rst : Bool) (left : Nat) : State :=
  { State.reset with
    pins := [{ rst := rst, reqValid := true, req := Request.of .incr 4 0 0 }]
    willing := [true]
    lat := { base := 1, entries := [(Request.of .incr 4 0 0, 2)] }
    depthPred := 2
    pending := [⟨Request.of .len 7 0 0, left⟩, ⟨Request.of .decr 7 0 0, 0⟩] }

/-- What is seen after one step: RN of the response, and the codes in flight with their latencies. -/
def seen (s : State) : Option (Option Byte × List (Byte × Nat)) :=
  match step s with
  | .next t => some (t.rsp.map Response.rn, t.pending.map fun p => (p.req.op, p.left))
  | .fault _ => none
  | .refused _ => none

/-- R152, R156: the oldest is answered, the new one joins as the youngest. -/
theorem test_edge_answers_oldest : seen (busy false 0) = some (some 3, [(0x33, 0), (0x32, 1)]) := by decide

/-- R156: a younger request that is due waits for the oldest. -/
theorem test_edge_waits_in_order : seen (busy false 1) = some (none, [(0x10, 0), (0x33, 0), (0x32, 1)]) := by decide

/-- R150: reset discards what is in flight and accepts nothing. -/
theorem test_edge_reset : seen (busy true 0) = some (none, []) := by decide

/-- R150: REQ_READY = 0 under RST. -/
theorem test_ready_low_under_reset : (busy true 0).reqReady = false ∧ (busy false 0).reqReady = true := by decide

/-- R157: LAT depends on what the operation reads: INCR ignores Y and CI, and 5 is another operand than 4. -/
theorem test_latency_reads_operands : (busy false 0).latOf (Request.of .incr 4 7 7) = 2 ∧
    (busy false 0).latOf (Request.of .incr 5 0 0) = 1 ∧ (busy false 0).latOf (Request.of .add 4 0 0) = 1 := by decide

/-- R153: a block that is not willing is not ready. -/
theorem test_ready_low_when_unwilling : ({ busy false 0 with willing := [false] }).reqReady = false := by decide

/-- R156: with DEPTH requests in flight nothing more is accepted. -/
theorem test_ready_low_when_full : ({ busy false 0 with depthPred := 1 }).reqReady = false := by decide

/-! ## The host's two entry points -/

theorem test_decodeTableWord : decodeTableWord 8 0x45 = some .fmtStr ∧ decodeTableWord 8 0x46 = none ∧
    decodeTableWord 8 0x145 = none := by decide

theorem test_withFetchWord_runs_clz :
    (match step (State.reset.withFetchWord 8 0x11) with
      | .next t => t.rsp.map Response.rn
      | _ => none) = some 128 := by decide

/-! ## The requester -/

/-- Program 1 of section 3, its second line. -/
theorem test_line_add128 :
    (runTransaction [(0, .u128 (val 0xffffffffffffffff 0xffffffffffffff00)), (9, .u128 0)]
      (.line ⟨[4, 5], .add128, [.temp 0, .lit 0x100, .temp 9]⟩)).map (fun u => (u.1.get 4, u.1.get 5, u.2)) =
    some (some (.u128 0), some (.u128 1), 0b00#2) := by decide

/-- Program 5 of section 3, its transactions 1 to 6 (the names `%m %w %u %s %c %n` are 0 to 5): the wraps, the dirty
carry in, the reserved opcode and the operation after it. -/
def program5 : List Transaction :=
  [.line ⟨[0], .max, []⟩, .line ⟨[1], .incr, [.temp 0]⟩, .line ⟨[2], .decr, [.temp 1]⟩,
    .line ⟨[3, 4], .add128, [.temp 0, .temp 1, .temp 0]⟩, .reserved 0x34 (.temp 0) (.temp 0) (.temp 0),
    .line ⟨[5], .clz, [.temp 1]⟩]

theorem test_program5 :
    (runProgram [] program5).map (fun e => ([0, 1, 2, 3, 4, 5].map e.temps.get, e.status)) =
      some ([some (.u128 maxConst), some (.u128 0), some (.u128 maxConst), some (.u128 0), some (.u128 1),
        some (.count 128)], [(4, 0b10#2), (5, 0b01#2)]) := by decide

/-- A temporary that holds a count is no Uint128 operand. -/
theorem test_line_kind : runTransaction [(0, .count 3)] (.line ⟨[1], .len, [.temp 0]⟩) = none := by decide

/-- The first example line of R59, with the temporary's name a number. -/
theorem test_line_text_clz : lineText ⟨[0], .clz, [.pair 0x0 0x456]⟩ = "%0 = CLZ (H=0x0, L=0x456)".toList := by decide

/-- The second example line of R59, with the temporaries' names numbers. -/
theorem test_line_text_add128 :
    lineText ⟨[0, 1], .add128, [.temp 2, .temp 3, .temp 4]⟩ = "%0, %1 = ADD128 %2, %3, %4".toList := by decide

/-- Transaction 5 of program 5. -/
theorem test_transaction_text_reserved :
    transactionText (.reserved 0x34 (.temp 0) (.temp 0) (.temp 0)) =
      "(reserved) OP 0x34 with X = %0, Y = %0, CI = %0".toList := by decide

/-! ## Witnesses: the hypotheses of the statements can be met -/

/-- OrderAgreesWithArithmetic, at both ends of each range. -/
theorem witness_order : zeroConst ≠ maxConst ∧ (maxConst - 1 : Uint128) ≠ maxConst ∧ maxConst ≠ zeroConst ∧
    (1 : Uint128) ≠ zeroConst := by decide

/-- ReservedOpcodeIsAnsweredWithIll and StatusTakesThreeValues: a reserved code. -/
theorem witness_reserved : ∀ i, ({ State.reset with req := ⟨0x04, 0, 0, 0⟩ } : State).req.op ≠ encode i := by
  intro i; cases i <;> decide

/-- CarryInViolationIsReported: a dirty carry in. -/
theorem witness_civ : (respond ⟨0x30, 0, 0, 2⟩).civ = true := by decide

/-- NothingFaultsOrRefuses: an operation that is not ADD128, and a clean carry in. -/
theorem witness_clean : Instr.add ≠ Instr.add128 ∧ State.reset.req.ci.toNat ≤ 1 := by decide

/-- PortsNotDrivenAreZero: for each clause an operation outside its list. -/
theorem witness_not_driven : Instr.zero ∉ [Instr.max, .rev, .revb, .add128, .add, .incr, .decr] ∧
    Instr.zero ∉ [Instr.len, .clz, .ctz, .popcnt] ∧ Instr.zero ∉ [Instr.eq, .cmp] ∧
    Instr.zero ∉ [Instr.fmtBin, .fmtOct, .fmtDec, .fmtHexl, .fmtHexu, .fmtStr] := by decide

/-- The lowest bit is the highest set bit of one. -/
theorem highestSetBit_one (w : Nat) (hw : 0 < w) : HighestSetBit (1 : BitVec w) 0 := by
  refine ⟨by simp [hw], fun j hj => ?_⟩
  have : j ≠ 0 := by omega
  simp [this]

/-- The top bit is the highest set bit of a word of all ones. -/
theorem highestSetBit_top (w : Nat) : HighestSetBit (BitVec.allOnes (w + 1)) w := by
  refine ⟨by simp, fun j hj => ?_⟩
  simp
  omega

/-- StatusTakesThreeValues: a status other than 11; and the ends of the ranges of bit, byte and digit numbers. -/
theorem witness_ranges : (0b10#2 : BitVec 2) ≠ 0b11#2 ∧ 63 < 64 ∧ 7 < 8 ∧ 127 < 128 ∧ 15 < 16 := by decide

/-- LenIsTheBitLength, ClzCountsLeadingZeros, WordFunctionsMeetTheirDefinitions: the highest index of each range. -/
theorem witness_highest_top : HighestSetBit (BitVec.allOnes 128) 127 ∧ HighestSetBit (BitVec.allOnes 64) 63 :=
  ⟨highestSetBit_top 127, highestSetBit_top 63⟩

/-- LenIsTheBitLength, ClzCountsLeadingZeros, WordFunctionsMeetTheirDefinitions: a highest set bit, and the zero value. -/
theorem witness_highest : HighestSetBit (1 : Uint128) 0 ∧ HighestSetBit (1 : Word) 0 ∧
    State.reset.req.x = 0 ∧ ({ State.reset with req := Request.of .len 1 0 0 } : State).req.x ≠ 0 :=
  ⟨highestSetBit_one 128 (by decide), highestSetBit_one 64 (by decide), by decide, by decide⟩

/-- CtzCountsTrailingZeros, WordFunctionsMeetTheirDefinitions: a lowest set bit, at the top of the range. -/
theorem witness_lowest : LowestSetBit (1 : Uint128) 0 ∧ LowestSetBit (1 : Word) 0 ∧
    LowestSetBit (val 0x8000000000000000 0) 127 := by
  refine ⟨⟨by decide, by omega⟩, ⟨by decide, by omega⟩, by decide, ?_⟩
  decide

/-- CountsOfTheZeroValue and DecrSubtractsOne: a request whose X is zero, and one whose X is not. -/
theorem witness_zero_x : State.reset.req.x = 0 ∧ lo State.reset.req.x = 0 ∧
    ({ State.reset with req := Request.of .decr 1 0 0 } : State).req.x ≠ 0 ∧
    lo ({ State.reset with req := Request.of .decr 1 0 0 } : State).req.x ≠ 0 := by decide

/-- IncrAddsOne: a low word of all ones, and one that is not. -/
theorem witness_incr : lo ({ State.reset with req := Request.of .incr maxConst 0 0 } : State).req.x =
    0xFFFFFFFFFFFFFFFF#64 ∧ lo State.reset.req.x ≠ 0xFFFFFFFFFFFFFFFF#64 := by decide

/-- CountIdentities: a value that is not zero, with two set bits around a third. -/
theorem witness_counts : (7 : Uint128) ≠ 0 ∧ (7 : Uint128).getLsbD 0 = true ∧ (7 : Uint128).getLsbD 2 = true := by
  decide

/-- CmpIsATotalOrder: two values each at most the other, and three in order. -/
theorem witness_order_chain : (ask .cmp 1 1 0).rf = 0b001#3 ∧ (ask .cmp 1 2 0).rf = 0b010#3 ∧
    (ask .cmp 2 3 0).rf = 0b010#3 := by decide

/-- OnlyBitZeroOfCarryInCounts: two carries that agree in bit 0 alone. -/
theorem witness_carry : (0 : Uint128).getLsbD 0 = (2 : Uint128).getLsbD 0 := by decide

/-- FormatsReadExactlyTheirPorts: an operation outside the list of those that read nothing. -/
theorem witness_reads : Instr.len ∉ [Instr.zero, .max] ∧ Instr.add128 ∈ [Instr.eq, .cmp, .add, .add128] := by decide

/-- ReversalsAreInvolutions, and the statements over `formats`: the lists are not empty. -/
theorem witness_lists : Instr.rev ∈ [Instr.rev, .revb] ∧ (Instr.fmtBin, 2, false) ∈ formats ∧
    (Instr.fmtHexu, 16, true) ∈ formats := by decide

/-- FormatsAreCanonical, for zero: a canonical digit sequence. -/
theorem witness_canonical : Canonical 10 0 [0] ∧ Canonical 10 12 [1, 2] := by
  refine ⟨⟨by decide, by decide, by decide, by decide⟩, by decide, by decide, by decide, by decide⟩

/-- TextLengths and TextReadsBackToTheValue: a value that is not zero, a text of 43 octal digits, the single character
`0`. -/
theorem witness_texts : (1 : Uint128) ≠ 0 ∧ (ask .fmtOct maxConst 0 0).rslen.toNat = 43 ∧
    (ask .fmtOct 0 0 0).rs[0] = 0x30#8 := by decide

/-- DecimalByWordsAndByGroups: a divisor at the top of its range, 10^19 among them. -/
theorem witness_divisor : 0 < 2 ^ 64 - 1 ∧ 2 ^ 64 - 1 < 2 ^ 64 ∧ 10 ^ 19 < 2 ^ 64 := by decide

/-- StepRunsTheDecodedOperation and OneCycleAcceptsAndPresents: no reset, the oldest request due and decoded. -/
theorem witness_step : (busy false 0).input.rst = false ∧
    (busy false 0).acceptEdge.pending =
      ⟨Request.of .len 7 0 0, 0⟩ :: [⟨Request.of .decr 7 0 0, 0⟩, ⟨Request.of .incr 4 0 0, 2⟩] ∧
    decode (Request.of .len 7 0 0).op = .ok .len := by decide

/-- CombinationalImplementationConforms: the state after reset with a request presented. -/
theorem witness_combinational : ∃ s : State, s.willing = [] ∧ s.latOf s.input.req = 0 ∧ s.pending = [] ∧
    s.input.reqValid = true :=
  ⟨{ State.reset with pins := [⟨false, true, Request.of .max 0 0 0⟩] }, rfl, rfl, rfl, rfl⟩

/-- EveryAcceptedRequestIsAnswered, the clauses on LAT: a request with LAT = 2 accepted behind two others, and into an
empty block. -/
theorem witness_latency : (busy false 1).accepts = true ∧ (busy false 1).latOf (busy false 1).input.req = 2 ∧
    noReset 2 (busy false 1) ∧
    (let s := { busy false 1 with pending := [] }
     s.accepts = true ∧ s.pending = [] ∧ s.latOf s.input.req = 2 ∧ noReset 3 s) := by
  unfold noReset; decide

/-- EveryAcceptedRequestIsAnswered, its last clause: two requests that differ only in a port that is not read. -/
theorem witness_same_operands :
    let q := Request.of .incr 4 0 0
    let q' := Request.of .incr 4 7 9
    q ≠ q' ∧ q.op = q'.op ∧ ∀ i, decode q.op = .ok i →
      (i.format ∈ [Format.unary, .binary, .ternary] → q.x = q'.x) ∧
      (i.format ∈ [Format.binary, .ternary] → q.y = q'.y) ∧ (i.format = Format.ternary → q.ci = q'.ci) := by
  refine ⟨by decide, rfl, fun i h => ?_⟩
  cases (show Except.ok Instr.incr = Except.ok i from h)
  decide

/-- ResetDiscardsWhatIsInFlight: a reset with requests in flight. -/
theorem witness_reset : (busy true 0).input.rst = true ∧ (busy true 0).pending ≠ [] ∧
    ∃ t, step (busy true 0) = .next t ∧ noReset 3 t := by
  refine ⟨by decide, by decide, _, rfl, ?_⟩
  intro e he
  simp [busy, State.resetEdge, State.advance] at he

/-- ResponsesComeInAcceptanceOrder and EveryAcceptedRequestIsAnswered: no reset, requests in flight, within DEPTH. -/
theorem witness_run : noReset 5 (busy false 1) ∧ (∀ e ∈ (busy false 1).pins, e.rst = false) ∧
    1 < (busy false 1).pending.length ∧ (busy false 1).pending.length ≤ (busy false 1).depth := by
  refine ⟨?_, ?_, by decide, by decide⟩
  · unfold noReset; decide
  · decide

/-- The response to this request is legal. -/
theorem legal_len_seven : (respond (Request.of .len 7 0 0)).legal := by
  unfold Response.legal
  decide +kernel

/-- EveryStepKeepsTheInvariant: a state with requests in flight and a response presented that meets the invariant. -/
theorem witness_inv :
    let s := { busy false 0 with req := Request.of .len 7 0 0, rsp := some (respond (Request.of .len 7 0 0)) }
    s.Inv ∧ s.rspValid = true ∧ ∃ t, step s = .next t := by
  refine ⟨⟨by decide, by decide, ?_⟩, rfl, _, rfl⟩
  intro r h
  cases h
  exact ⟨rfl, legal_len_seven⟩

/-- LineNamesReceiveTheResultPorts: a well-formed line with its request. -/
theorem witness_line : Line.wf ⟨[1], .incr, [.temp 0]⟩ = true ∧
    lineRequest [(0, .u128 5)] ⟨[1], .incr, [.temp 0]⟩ = some (Request.of .incr 5 0 0) ∧ [1].Nodup := by decide

/-- LineNamesReceiveTheResultPorts, its clause on a reserved opcode: the last code of a range. -/
theorem witness_reserved_transaction : (∀ i, (0xFF#8 : Byte) ≠ encode i) ∧
    Operand.wf (.temp 0) = true ∧ Operand.wf (.lit (2 ^ 128 - 1)) = true ∧
    transactionRequest [(0, .u128 5)] (.reserved 0xFF (.temp 0) (.lit (2 ^ 128 - 1)) (.temp 0)) =
      some ⟨0xFF, 5, maxConst, 5⟩ := by
  refine ⟨fun i => ?_, by decide, by decide, by decide⟩
  cases i <;> decide

/-- LineNamesReceiveTheResultPorts, its clause on programs: a program with a reserved opcode between two lines. -/
theorem witness_program : (runProgram [] ([.line ⟨[0], .max, []⟩] ++
    .reserved 0x34 (.temp 0) (.temp 0) (.temp 0) :: [.line ⟨[1], .incr, [.temp 0]⟩])).isSome = true := by
  decide

end Sys2Proof.Tests
end

section
/-! PROOFS. spec/00_scope.md: a transaction as a function of its request (R10), and the word-level functions (R9). -/

namespace Sys2Proof.Machine

/-! ## What an operation answers (R10) -/

/-- The response of each operation, read off the request alone (R10, R53). -/
def result (q : Request) : Instr → Response
  | .zero => driveRV zeroConst
  | .max => driveRV maxConst
  | .eq => driveRF (eqFlags q.x q.y)
  | .cmp => driveRF (cmpFlags q.x q.y)
  | .len => driveRN (bitLength q.x)
  | .clz => driveRN (leadingZeros q.x)
  | .ctz => driveRN (trailingZeros q.x)
  | .popcnt => driveRN (onesCount q.x)
  | .rev => driveRV (reverseBits q.x)
  | .revb => driveRV (reverseBytes q.x)
  | .add128 =>
    driveSum (addStatus q.ci) (addCarry q.x q.y (carryIn q.ci)).1 (addCarry q.x q.y (carryIn q.ci)).2
  | .add => driveRV (wrappingAdd q.x q.y)
  | .incr => driveRV (increment q.x)
  | .decr => driveRV (decrement q.x)
  | .fmtBin => driveText (fmtText 2 lowerA q.x)
  | .fmtOct => driveText (fmtText 8 lowerA q.x)
  | .fmtDec => driveText (fmtText 10 lowerA q.x)
  | .fmtHexl => driveText (fmtText 16 lowerA q.x)
  | .fmtHexu => driveText (fmtText 16 upperA q.x)
  | .fmtStr => driveText (fmtText 10 lowerA q.x)

/-- Every operation answers its result and changes nothing else. -/
theorem exec_eq_answerWith_result (i : Instr) (s : State) : exec i s = .next (s.answerWith (result s.req i)) := by
  cases i <;> rfl

theorem answer_of_decode_ok {s : State} {i : Instr} (h : decode s.req.op = .ok i) :
    s.answer = .next (s.answerWith (result s.req i)) := by
  rw [State.answer, h, ← exec_eq_answerWith_result]

theorem answer_of_decode_error {s : State} {e : DecodeError} (h : decode s.req.op = .error e) :
    s.answer = .next (s.answerWith reservedResponse) := by
  rw [State.answer, h]

/-- `respond` takes the response that `answer` presents where the request stands on the ports of the reset state. -/
theorem respond_eq_of_answer {q : Request} {t : State} {r : Response}
    (h : ({ State.reset with req := q } : State).answer = .next (t.answerWith r)) : respond q = r := by
  rw [respond, h]
  rfl

theorem respond_of_decode_ok {q : Request} {i : Instr} (h : decode q.op = .ok i) : respond q = result q i :=
  respond_eq_of_answer (answer_of_decode_ok h)

theorem respond_of_decode_error {q : Request} {e : DecodeError} (h : decode q.op = .error e) :
    respond q = reservedResponse :=
  respond_eq_of_answer (answer_of_decode_error h)

/-- Settles O6: an operation and the report of a reserved opcode each answer with the request's own response. -/
theorem answerIsAFunctionOfTheRequest : Obligations.AnswerIsAFunctionOfTheRequest := by
  intro s
  change s.answer = .next (s.answerWith (respond s.req))
  cases h : decode s.req.op with
  | ok i => rw [answer_of_decode_ok h, respond_of_decode_ok h]
  | error e => rw [answer_of_decode_error h, respond_of_decode_error h]

/-! ## The word-level functions (R9) -/

theorem clz64_of_highestSetBit {w : Word} {i : Nat} (h : HighestSetBit w i) : clz64 w = 63 - i :=
  leadingZerosFrom_of_highest w 64 i (BitVec.lt_of_getLsbD h.1) h.1 fun j hj _ => h.2 j hj

theorem clz64_zero : clz64 0 = 64 := leadingZerosFrom_zero 64

theorem ctz64_of_lowestSetBit {w : Word} {i : Nat} (h : LowestSetBit w i) : ctz64 w = i :=
  trailingZerosFrom_of_lowest w 64 i (Nat.le_refl 64) (Nat.zero_le i) (BitVec.lt_of_getLsbD h.1) h.1
    fun j _ hj => h.2 j hj

theorem ctz64_zero : ctz64 0 = 64 := trailingZerosFrom_zero 64

theorem popcnt64_eq_setBits (w : Word) : popcnt64 w = setBits w := onesBelow_eq_countP w 64

/-- A vector has no more set bits than bits. -/
theorem setBits_le_width {n : Nat} (x : BitVec n) : setBits x ≤ n := by
  simpa [setBits] using List.countP_le_length (p := fun i => x.getLsbD i) (l := List.range n)

/-- Bit `i` of byte `k` of `bswap64` is bit `i` of byte `7 - k`. -/
theorem extractLsb'_bswap64 (w : Word) {k : Nat} (hk : k < 8) :
    (bswap64 w).extractLsb' (8 * k) 8 = w.extractLsb' (8 * (7 - k)) 8 := by
  apply BitVec.eq_of_getLsbD_eq
  intro i hi
  have hlt : 8 * k + i < 64 := by omega
  have hbyte : (8 * k + i) / 8 = k := by omega
  have hbit : (8 * k + i) % 8 = i := by omega
  simp only [BitVec.getLsbD_extractLsb', getLsbD_bswap64, hlt, hbyte, hbit, decide_true, Bool.true_and]

/-- Settles O13: each word function by the lemma that says what it computes. -/
theorem wordFunctionsMeetTheirDefinitions : Obligations.WordFunctionsMeetTheirDefinitions := by
  intro w
  refine ⟨fun i => clz64_of_highestSetBit, clz64_zero, fun i => ctz64_of_lowestSetBit, ctz64_zero,
    popcnt64_eq_setBits w, ?_, fun i hi => ?_, fun k hk => extractLsb'_bswap64 w hk⟩
  · rw [popcnt64_eq_setBits]
    exact setBits_le_width w
  · rw [getLsbD_rev64, decide_eq_true hi, Bool.true_and]

end Sys2Proof.Machine
end

section
/-! PROOFS. spec/10_state.md: the response ports that an operation does not drive are zero (R26, R53). -/

namespace Sys2Proof.Machine

/-! ## What a defined operation is answered -/

theorem decode_encode (i : Instr) : decode (encode i) = .ok i := by
  cases i <;> decide

theorem ask_eq_result (i : Instr) (x y ci : Uint128) : ask i x y ci = result (Request.of i x y ci) i :=
  respond_of_decode_ok (decode_encode i)

/-! ## The ports that a response drives (R26) -/

/-- The responses of the operations, each with the result ports it drives: the five shapes of the table of R53. -/
inductive Drives : List ResultPort → Response → Prop
  | value (v : Uint128) : Drives [.rv] (driveRV v)
  | count (n : Nat) : Drives [.rn] (driveRN n)
  | flags (f : BitVec 3) : Drives [.rf] (driveRF f)
  | text (cs : List Byte) : Drives [.rs] (driveText cs)
  | sum (ci v : Uint128) (carry : Nat) : Drives [.rv, .rc] (driveSum (addStatus ci) v carry)

theorem result_drives (q : Request) (i : Instr) : Drives i.results (result q i) := by
  cases i <;> constructor

theorem ask_drives (i : Instr) (x y ci : Uint128) : Drives i.results (ask i x y ci) := by
  rw [ask_eq_result]
  exact result_drives _ i

/-- The status of an addition never has the bit ILL (R132). -/
theorem addStatus_ill (ci : Uint128) : (addStatus ci).getLsbD 0 = false := by
  unfold addStatus
  cases carryInDirty ci <;> rfl

section
variable {ps : List ResultPort} {r : Response}

theorem Drives.rv_eq_zero (h : Drives ps r) (hp : .rv ∉ ps) : r.rv = 0 := by
  cases h with
  | value | sum => simp at hp
  | count | flags | text => rfl

theorem Drives.rc_eq_zero (h : Drives ps r) (hp : .rc ∉ ps) : r.rc = 0 := by
  cases h with
  | sum => simp at hp
  | value | count | flags | text => rfl

theorem Drives.rn_eq_zero (h : Drives ps r) (hp : .rn ∉ ps) : r.rn = 0 := by
  cases h with
  | count => simp at hp
  | value | flags | text | sum => rfl

theorem Drives.rf_eq_zero (h : Drives ps r) (hp : .rf ∉ ps) : r.rf = 0 := by
  cases h with
  | flags => simp at hp
  | value | count | text | sum => rfl

theorem Drives.text_eq_zero (h : Drives ps r) (hp : .rs ∉ ps) :
    r.rslen = 0 ∧ ∀ k (hk : k < 128), r.rs[k] = 0 := by
  cases h with
  | text => simp at hp
  | value | count | flags | sum => exact ⟨rfl, Response.zero_rs_getElem⟩

/-- A status is set only where a carry out is driven: by `ADD128` (R53). -/
theorem Drives.st_eq_zero (h : Drives ps r) (hp : .rc ∉ ps) : r.st = 0 := by
  cases h with
  | sum => simp at hp
  | value | count | flags | text => rfl

theorem Drives.ill_eq_false (h : Drives ps r) : r.ill = false := by
  cases h with
  | sum ci => exact addStatus_ill ci
  | value | count | flags | text => exact BitVec.getLsbD_zero

end

/-! ## The columns of the table of R53 -/

section
variable {i : Instr}

theorem rv_mem_results : .rv ∈ i.results ↔ i ∈ [Instr.zero, .max, .rev, .revb, .add128, .add, .incr, .decr] := by
  cases i <;> decide

theorem rc_mem_results : .rc ∈ i.results ↔ i = .add128 := by
  cases i <;> decide

theorem rn_mem_results : .rn ∈ i.results ↔ i ∈ [Instr.len, .clz, .ctz, .popcnt] := by
  cases i <;> decide

theorem rf_mem_results : .rf ∈ i.results ↔ i ∈ [Instr.eq, .cmp] := by
  cases i <;> decide

theorem rs_mem_results :
    .rs ∈ i.results ↔ i ∈ [Instr.fmtBin, .fmtOct, .fmtDec, .fmtHexl, .fmtHexu, .fmtStr] := by
  cases i <;> decide

end

/-! ## The values of family 0 -/

theorem ask_zero_rv (x y ci : Uint128) : (ask .zero x y ci).rv = 0 := by
  rw [ask_eq_result]
  rfl

theorem ask_max_rv (x y ci : Uint128) : (ask .max x y ci).rv = maxConst := by
  rw [ask_eq_result]
  rfl

theorem ask_eq_rf (x y ci : Uint128) : (ask .eq x y ci).rf = eqFlags x y := by
  rw [ask_eq_result]
  rfl

theorem ask_cmp_rf (x y ci : Uint128) : (ask .cmp x y ci).rf = cmpFlags x y := by
  rw [ask_eq_result]
  rfl

theorem maxConst_ne_zero : maxConst ≠ 0 := by decide

/-- `EQ` drives the bit EQ only (R72). -/
theorem eqFlags_cases (x y : Uint128) : eqFlags x y = 0b000#3 ∨ eqFlags x y = 0b001#3 := by
  unfold eqFlags
  cases wordsEqual x y <;> decide

/-- `CMP` sets exactly one of the bits EQ, LT and GT (R73). -/
theorem cmpFlags_cases (x y : Uint128) :
    cmpFlags x y = 0b001#3 ∨ cmpFlags x y = 0b010#3 ∨ cmpFlags x y = 0b100#3 := by
  unfold cmpFlags
  split_ifs <;> decide

/-! ## Ports not driven (R26, R53) -/

/-- RV is zero where R53 does not tick it, and for `ZERO`, which drives it with the value zero. -/
theorem ask_rv_eq_zero {i : Instr} (h : i ∉ [Instr.max, .rev, .revb, .add128, .add, .incr, .decr])
    (x y ci : Uint128) : (ask i x y ci).rv = 0 := by
  by_cases hz : i = .zero
  · rw [hz, ask_zero_rv]
  · exact (ask_drives i x y ci).rv_eq_zero (mt rv_mem_results.mp (List.not_mem_cons_of_ne_of_not_mem hz h))

/-- Settles O5: every answer has one of the shapes of R53, which leave the ports not driven zero. -/
theorem portsNotDrivenAreZero : Obligations.PortsNotDrivenAreZero := by
  intro i x y ci
  have hd := ask_drives i x y ci
  rw [ask_max_rv, ask_eq_rf, ask_cmp_rf]
  exact ⟨fun h => ask_rv_eq_zero h x y ci,
    fun h => hd.rc_eq_zero (mt rc_mem_results.mp h),
    fun h => hd.rn_eq_zero (mt rn_mem_results.mp h),
    fun h => hd.rf_eq_zero (mt rf_mem_results.mp h),
    fun h => hd.text_eq_zero (mt rs_mem_results.mp h),
    fun h => hd.st_eq_zero (mt rc_mem_results.mp h),
    hd.ill_eq_false, maxConst_ne_zero, eqFlags_cases x y, cmpFlags_cases x y⟩

end Sys2Proof.Machine
end

section
/-! PROOFS. spec/30_encoding.md: the decoder and the reserved codes (R52, R55, R56), the operand ports that each format
reads (R51), and the step that runs the operation selected by OP (R50). -/

namespace Sys2Proof.Machine

/-! ## The decoder (R52) -/

/-- "The match is on all eight bits" (R52), and the pattern of a row is the code of its operation. -/
theorem opcodeRows_pattern : ∀ row ∈ opcodeRows, row.mask = 0xFF#8 ∧ row.pattern = encode row.instr := by
  decide

/-- A row of the table selects the code of its operation and no other. -/
theorem opcodeRow_selects_iff {row : OpcodeRow} (hrow : row ∈ opcodeRows) (op : Byte) :
    row.selects op = true ↔ op = encode row.instr := by
  obtain ⟨hmask, hpattern⟩ := opcodeRows_pattern row hrow
  have hall : op &&& 0xFF#8 = op := BitVec.and_allOnes
  rw [OpcodeRow.selects, hmask, hpattern, hall, beq_iff_eq]

theorem decode_eq_ok_iff {op : Byte} {i : Instr} : decode op = .ok i ↔ op = encode i := by
  refine ⟨fun h => ?_, fun h => h ▸ decode_encode i⟩
  unfold decode at h
  split at h
  next hfind =>
    cases h
    exact (opcodeRow_selects_iff (List.mem_of_find?_eq_some hfind) op).mp (List.find?_some hfind)
  next => cases h

/-- The two outcomes of the decoder: an operation, or the refusal of this very code as reserved (R55). -/
theorem decode_cases (op : Byte) : (∃ i, decode op = .ok i) ∨ decode op = .error (.reserved op) := by
  unfold decode
  split
  next row _ => exact .inl ⟨row.instr, rfl⟩
  next => exact .inr rfl

theorem decode_eq_reserved_iff {op : Byte} : decode op = .error (.reserved op) ↔ ∀ i, op ≠ encode i := by
  constructor
  · intro h i hi
    rw [decode_eq_ok_iff.mpr hi] at h
    cases h
  · intro h
    exact (decode_cases op).resolve_left fun ⟨i, hi⟩ => h i (decode_eq_ok_iff.mp hi)

/-! ## The reserved codes (R55) -/

/-- The codes of the twenty operations, as numbers. -/
def opcodeNumbers : List Nat := opcodeRows.map fun row => (encode row.instr).toNat

theorem opcodeNumbers_eq : opcodeNumbers =
    [0x00, 0x01, 0x02, 0x03, 0x10, 0x11, 0x12, 0x13, 0x20, 0x21, 0x30, 0x31, 0x32, 0x33,
      0x40, 0x41, 0x42, 0x43, 0x44, 0x45] := by
  decide

/-- No operation is missing from the opcode table. -/
theorem exists_row (i : Instr) : ∃ row ∈ opcodeRows, row.instr = i := by
  cases i <;> decide

theorem mem_opcodeNumbers_iff {op : Byte} : op.toNat ∈ opcodeNumbers ↔ ∃ i, op = encode i := by
  simp only [opcodeNumbers, List.mem_map, BitVec.toNat_inj]
  constructor
  · rintro ⟨row, _, h⟩
    exact ⟨row.instr, h.symm⟩
  · rintro ⟨i, rfl⟩
    obtain ⟨row, hrow, rfl⟩ := exists_row i
    exact ⟨row, hrow, rfl⟩

theorem decode_eq_reserved_iff_not_mem {op : Byte} :
    decode op = .error (.reserved op) ↔ op.toNat ∉ opcodeNumbers := by
  rw [decode_eq_reserved_iff, mem_opcodeNumbers_iff, not_exists]

/-- Settles O3: the gaps between the twenty codes are the six ranges, and they leave 236 of the 256 numbers. -/
theorem reservedCodesAreTheListedRanges : Obligations.ReservedCodesAreTheListedRanges := by
  refine ⟨fun op => ?_, ?_⟩
  · have hlt : op.toNat < 256 := op.isLt
    rw [decode_eq_reserved_iff_not_mem, opcodeNumbers_eq]
    simp only [List.mem_cons, List.not_mem_nil, or_false]
    omega
  · have hcongr : ((List.range 256).filter fun n =>
          decode (BitVec.ofNat 8 n) = .error (.reserved (BitVec.ofNat 8 n))) =
        (List.range 256).filter fun n => n ∉ opcodeNumbers := by
      refine List.filter_congr fun n hn => ?_
      have hmod : (BitVec.ofNat 8 n).toNat = n := Nat.mod_eq_of_lt (List.mem_range.mp hn)
      rw [decide_eq_decide, decode_eq_reserved_iff_not_mem, hmod]
    rw [hcongr]
    decide +kernel

/-! ## The report of a reserved opcode (R56) -/

theorem respond_of_reserved {q : Request} (h : ∀ i, q.op ≠ encode i) : respond q = reservedResponse :=
  respond_of_decode_error (decode_eq_reserved_iff.mpr h)

theorem respond_of_encode {q : Request} {i : Instr} (h : q.op = encode i) : respond q = result q i :=
  respond_of_decode_ok (decode_eq_ok_iff.mpr h)

/-- ST.ILL is the report of a reserved opcode, and of nothing else (R131). -/
theorem respond_ill_iff (q : Request) : (respond q).ill = true ↔ ∀ i, q.op ≠ encode i := by
  constructor
  · intro hill i hi
    rw [respond_of_encode hi, (result_drives q i).ill_eq_false] at hill
    cases hill
  · intro h
    rw [respond_of_reserved h]
    rfl

/-- The response to a reserved opcode, every port written out. -/
theorem reservedResponse_eq : reservedResponse =
    { st := 0b01#2, rv := 0, rc := 0, rn := 0, rf := 0, rslen := 0, rs := Vector.replicate 128 0 } := by
  have hrs : (Vector.ofFn fun _ => 0 : Vector Byte 128) = Vector.replicate 128 0 := by
    ext k hk
    simp
  rw [reservedResponse, Response.zero, hrs]
  rfl

/-- Settles O9: a code of no operation is refused by the decoder, and only the report of this has ST.ILL = 1. -/
theorem reservedOpcodeIsAnsweredWithIll : Obligations.ReservedOpcodeIsAnsweredWithIll := by
  refine ⟨fun s h => ?_, respond_ill_iff⟩
  rw [answer_of_decode_error (decode_eq_reserved_iff.mpr h), reservedResponse_eq]

/-! ## The operand ports that a format reads (R51) -/

/-- A result depends on no operand port but those that the format of its operation reads (R24, R51). -/
theorem result_congr {q q' : Request} {i : Instr} (hx : i.format.readsX = true → q.x = q'.x)
    (hy : i.format.readsY = true → q.y = q'.y) (hci : i.format.readsCI = true → q.ci = q'.ci) :
    result q i = result q' i := by
  cases i with
  | zero | max => rfl
  | eq | cmp | add => simp only [result, hx rfl, hy rfl]
  | len | clz | ctz | popcnt | rev | revb | incr | decr => simp only [result, hx rfl]
  | fmtBin | fmtOct | fmtDec | fmtHexl | fmtHexu | fmtStr => simp only [result, hx rfl]
  | add128 => simp only [result, hx rfl, hy rfl, hci rfl]

theorem ask_congr {i : Instr} {x y ci x' y' ci' : Uint128} (hx : i.format.readsX = true → x = x')
    (hy : i.format.readsY = true → y = y') (hci : i.format.readsCI = true → ci = ci') :
    ask i x y ci = ask i x' y' ci' := by
  rw [ask_eq_result, ask_eq_result]
  exact result_congr hx hy hci

/-- Every operation that reads X answers 0 and 1 on X differently, the other ports being zero. -/
theorem ask_x_zero_ne_one {i : Instr} (h : i ∉ [Instr.zero, .max]) : ask i 0 0 0 ≠ ask i 1 0 0 := by
  cases i with
  | zero | max => simp at h
  | eq | cmp => exact ne_of_apply_ne Response.rf (by decide)
  | len | clz | ctz | popcnt => exact ne_of_apply_ne Response.rn (by decide)
  | add128 | add | incr | decr => exact ne_of_apply_ne Response.rv (by decide)
  | rev | revb => exact ne_of_apply_ne Response.rv (by decide +kernel)
  | fmtBin | fmtOct | fmtDec | fmtHexl | fmtHexu | fmtStr => exact ne_of_apply_ne (fun r => r.rs[0]) (by decide)

/-- Every operation that reads Y answers 0 and 1 on Y differently, the other ports being zero. -/
theorem ask_y_zero_ne_one : ∀ i ∈ [Instr.eq, .cmp, .add, .add128], ask i 0 0 0 ≠ ask i 0 1 0 := by
  decide

/-- `ADD128` answers 0 and 1 on CI differently. -/
theorem ask_ci_zero_ne_one : ask .add128 0 0 0 ≠ ask .add128 0 0 1 := by
  decide

theorem format_nullary : ∀ i ∈ [Instr.zero, .max], i.format = .nullary := by decide

theorem format_unary : ∀ i ∈ [Instr.len, .clz, .ctz, .popcnt, .rev, .revb, .incr, .decr, .fmtBin, .fmtOct, .fmtDec,
    .fmtHexl, .fmtHexu, .fmtStr], i.format = .unary := by decide

theorem format_binary : ∀ i ∈ [Instr.eq, .cmp, .add], i.format = .binary := by decide

/-- Settles O4: the ports that a format does not read do not matter, and on a port that it reads the values 0 and 1
are answered differently. -/
theorem formatsReadExactlyTheirPorts : Obligations.FormatsReadExactlyTheirPorts := by
  refine ⟨fun i hi x y ci x' y' ci' => ?_, fun i hi x y ci y' ci' => ?_, fun i hi x y ci ci' => ?_,
    fun i hi => ⟨0, 1, ask_x_zero_ne_one hi⟩, fun i hi => ⟨0, 1, ask_y_zero_ne_one i hi⟩,
    ⟨0, 1, ask_ci_zero_ne_one⟩⟩
  · have hf := format_nullary i hi
    exact ask_congr (by simp [hf, Format.readsX]) (by simp [hf, Format.readsY]) (by simp [hf, Format.readsCI])
  · have hf := format_unary i hi
    exact ask_congr (fun _ => rfl) (by simp [hf, Format.readsY]) (by simp [hf, Format.readsCI])
  · have hf := format_binary i hi
    exact ask_congr (fun _ => rfl) (fun _ => rfl) (by simp [hf, Format.readsCI])

/-! ## A step runs the operation that OP selects (R10, R50, R152) -/

section
variable {s : State}

/-- Where the oldest request in flight is due, the step answers it. -/
theorem step_of_due {p : InFlight} {rest : List InFlight} (hrst : s.input.rst = false)
    (hpending : s.acceptEdge.pending = p :: rest) (hdue : p.left = 0) :
    step s = (s.acceptEdge.retire p rest).answer := by
  obtain ⟨hreset, _⟩ | ⟨_, hwait, _⟩ | ⟨_, p', rest', hpending', _, hstep⟩ := step_cases s
  · simp [hrst] at hreset
  · exact absurd hdue (hwait p rest hpending)
  · cases hpending.symm.trans hpending'
    exact hstep

theorem answer_eq_exec {i : Instr} (h : decode s.req.op = .ok i) : s.answer = exec i s := by
  rw [answer_of_decode_ok h, exec_eq_answerWith_result]

end

/-- The edge that follows `present` accepts the request, due at once, into an empty queue. -/
theorem acceptEdge_present (s : State) (q : Request) :
    (s.present q).acceptEdge = { s with
      pins := s.pins.tail, willing := s.willing.tail, lat := (s.present q).lat, pending := [⟨q, 0⟩] } := by
  have haccepts : (s.present q).accepts = true := by simp [State.accepts, State.reqReady, State.depth]
  rw [State.acceptEdge, if_pos haccepts, State.present_input, State.present_latOf]
  rfl

/-- A request presented is the one that the next step answers. -/
theorem step_present (s : State) {q : Request} {i : Instr} (h : decode q.op = .ok i) :
    step (s.present q) = exec i { s with
      pins := s.pins.tail, willing := s.willing.tail, lat := (s.present q).lat, pending := [], req := q,
      rsp := none } := by
  have hpending : (s.present q).acceptEdge.pending = [⟨q, 0⟩] := by rw [acceptEdge_present]
  rw [step_of_due rfl hpending rfl, acceptEdge_present]
  exact answer_eq_exec h

/-- Presenting the code of an operation as a table word is presenting the operation with the operands on the ports. -/
theorem withFetchWord_encode (s : State) (i : Instr) :
    s.withFetchWord 8 (encode i).toNat = s.present (Request.of i s.input.req.x s.input.req.y s.input.req.ci) := by
  have hop : BitVec.ofNat 8 ((encode i).toNat % 2 ^ 8) = encode i := by
    rw [Nat.mod_eq_of_lt (encode i).isLt, BitVec.ofNat_toNat, BitVec.setWidth_eq]
  rw [State.withFetchWord, hop]
  rfl

/-- Settles O50: the oldest request is due, in the queue as it stands or as the one that was presented. -/
theorem stepRunsTheDecodedOperation : Obligations.StepRunsTheDecodedOperation := by
  refine ⟨fun s _ _ _ hrst hpending hdue hdecode => ?_, fun s _ _ => step_present s, fun s i => ?_⟩
  · rw [step_of_due hrst hpending hdue]
    exact answer_eq_exec hdecode
  · rw [withFetchWord_encode, step_present s (decode_encode i), exec_eq_answerWith_result, ask_eq_result]
    exact ⟨_, rfl, rfl⟩

end Sys2Proof.Machine
end

section
/-! PROOFS. spec/40_construct_compare.md: the constants (R70, R71), equality (R72), the comparison and its order (R73,
R74), and the agreement of the order with the arithmetic (R75). -/

namespace Sys2Proof.Machine

section
variable (x y : Uint128)

/-! ## Equality (R72) -/

theorem wordsEqual_eq_true_iff : wordsEqual x y = true ↔ hi x = hi y ∧ lo x = lo y := by
  rw [wordsEqual, Bool.and_eq_true, beq_iff_eq, beq_iff_eq]

theorem hi_eq_and_lo_eq_iff : hi x = hi y ∧ lo x = lo y ↔ x.toNat = y.toNat := by
  rw [BitVec.toNat_inj]
  exact ⟨fun ⟨hhi, hlo⟩ => words_ext hhi hlo, fun h => h ▸ ⟨rfl, rfl⟩⟩

/-- The bit EQ stands in bit 0 of RF, the others are zero (R25, R72). -/
theorem eqFlags_eq_zeroExtend : eqFlags x y = BitVec.zeroExtend 3 (BitVec.ofBool (wordsEqual x y)) := by
  unfold eqFlags
  cases wordsEqual x y <;> rfl

theorem eqFlags_getLsbD_zero : (eqFlags x y).getLsbD 0 = wordsEqual x y := by
  unfold eqFlags
  cases wordsEqual x y <;> rfl

theorem eqFlags_eq_one_iff : eqFlags x y = 0b001#3 ↔ x.toNat = y.toNat := by
  rw [← hi_eq_and_lo_eq_iff, ← wordsEqual_eq_true_iff, eqFlags]
  cases wordsEqual x y <;> decide

/-! ## Comparison (R73) -/

/-- The comparison of the words, the flags written as the values of RF that R73 lists. -/
theorem cmpFlags_eq_ite : cmpFlags x y =
    if (hi x).toNat < (hi y).toNat then 0b010#3
    else if (hi y).toNat < (hi x).toNat then 0b100#3
    else if (lo x).toNat < (lo y).toNat then 0b010#3
    else if (lo y).toNat < (lo x).toNat then 0b100#3
    else 0b001#3 := by
  simp only [cmpFlags, BitVec.ult_iff_lt, BitVec.lt_def]
  rfl

/-- The order of the integers is positional in base 2^64: the high words decide, and on a tie the low words (R21). -/
theorem toNat_lt_iff_words : x.toNat < y.toNat ↔
    (hi x).toNat < (hi y).toNat ∨ (hi x).toNat = (hi y).toNat ∧ (lo x).toNat < (lo y).toNat := by
  have hx := (lo x).isLt
  have hy := (lo y).isLt
  rw [toNat_words x, toNat_words y]
  omega

variable {x y}

theorem cmpFlags_of_lt (h : x.toNat < y.toNat) : cmpFlags x y = 0b010#3 := by
  rw [cmpFlags_eq_ite]
  obtain hhi | ⟨hhi, hlo⟩ := (toNat_lt_iff_words x y).mp h
  · rw [if_pos hhi]
  · rw [if_neg hhi.not_lt, if_neg hhi.not_gt, if_pos hlo]

theorem cmpFlags_of_gt (h : y.toNat < x.toNat) : cmpFlags x y = 0b100#3 := by
  rw [cmpFlags_eq_ite]
  obtain hhi | ⟨hhi, hlo⟩ := (toNat_lt_iff_words y x).mp h
  · rw [if_neg hhi.not_gt, if_pos hhi]
  · rw [if_neg hhi.not_gt, if_neg hhi.not_lt, if_neg hlo.not_gt, if_pos hlo]

theorem cmpFlags_of_eq (h : x.toNat = y.toNat) : cmpFlags x y = 0b001#3 := by
  rw [BitVec.eq_of_toNat_eq h, cmpFlags_eq_ite]
  simp only [lt_irrefl, if_false]

variable (x y)

theorem cmpFlags_eq_lt_iff : cmpFlags x y = 0b010#3 ↔ x.toNat < y.toNat := by
  obtain h | h | h := lt_trichotomy x.toNat y.toNat
  · simp [cmpFlags_of_lt h, h]
  · simp [cmpFlags_of_eq h, h]
  · simp [cmpFlags_of_gt h, h.le]

theorem cmpFlags_eq_gt_iff : cmpFlags x y = 0b100#3 ↔ y.toNat < x.toNat := by
  obtain h | h | h := lt_trichotomy x.toNat y.toNat
  · simp [cmpFlags_of_lt h, h.le]
  · simp [cmpFlags_of_eq h, h]
  · simp [cmpFlags_of_gt h, h]

theorem cmpFlags_eq_eq_iff : cmpFlags x y = 0b001#3 ↔ x.toNat = y.toNat := by
  obtain h | h | h := lt_trichotomy x.toNat y.toNat
  · simp [cmpFlags_of_lt h, h.ne]
  · simp [cmpFlags_of_eq h, h]
  · simp [cmpFlags_of_gt h, h.ne']

theorem cmpFlags_getLsbD_zero : (cmpFlags x y).getLsbD 0 = wordsEqual x y := by
  have hiff : (cmpFlags x y).getLsbD 0 = true ↔ cmpFlags x y = 0b001#3 := by
    obtain h | h | h := cmpFlags_cases x y <;> rw [h] <;> decide
  rw [Bool.eq_iff_iff, hiff, cmpFlags_eq_eq_iff, wordsEqual_eq_true_iff, hi_eq_and_lo_eq_iff]

/-- LT or EQ, the relation `le` of R74. -/
theorem cmpFlags_le_iff : cmpFlags x y = 0b010#3 ∨ cmpFlags x y = 0b001#3 ↔ x.toNat ≤ y.toNat := by
  rw [cmpFlags_eq_lt_iff, cmpFlags_eq_eq_iff, Nat.le_iff_lt_or_eq]

/-! ## The integers that the arithmetic answers (R103, R104) -/

theorem toNat_beq (a b : Word) : (a == b).toNat = if a.toNat = b.toNat then 1 else 0 := by
  by_cases h : a = b <;> simp [h, BitVec.toNat_inj]

/-- The carry that leaves the low word is the bit that `increment` adds to the high one. -/
theorem toNat_increment : (increment x).toNat = (x.toNat + 1) % 2 ^ 128 := by
  have hhi := (hi x).isLt
  have hlo := (lo x).isLt
  simp only [increment, toNat_join, toNat_words x, toNat_beq, BitVec.toNat_add, BitVec.ofNat_eq_ofNat,
    BitVec.toNat_ofNat]
  split <;> omega

/-- The borrow of the low word is the bit that `decrement` takes from the high one. -/
theorem toNat_decrement : (decrement x).toNat = (x.toNat + (2 ^ 128 - 1)) % 2 ^ 128 := by
  have hhi := (hi x).isLt
  have hlo := (lo x).isLt
  simp only [decrement, toNat_join, toNat_words x, toNat_beq, BitVec.toNat_sub, BitVec.ofNat_eq_ofNat,
    BitVec.toNat_ofNat]
  split <;> omega

theorem toNat_zeroConst : zeroConst.toNat = 0 := by decide

theorem toNat_maxConst : maxConst.toNat = 2 ^ 128 - 1 := by decide

variable {x y}

theorem toNat_lt_toNat_increment (h : x ≠ maxConst) : x.toNat < (increment x).toNat := by
  have hne := BitVec.toNat_ne.mp h
  have hlt := x.isLt
  rw [toNat_maxConst] at hne
  rw [toNat_increment]
  omega

theorem toNat_decrement_lt_toNat (h : x ≠ zeroConst) : (decrement x).toNat < x.toNat := by
  have hne := BitVec.toNat_ne.mp h
  have hlt := x.isLt
  rw [toNat_zeroConst] at hne
  rw [toNat_decrement]
  omega

variable (x y)

/-- A carry leaves the adder exactly where the wrapped sum is less than each operand (R107). -/
theorem addCarry_carry_eq_one_iff : (addCarry x y 0).2 = 1 ↔
    (wrappingAdd x y).toNat < x.toNat ∧ (wrappingAdd x y).toNat < y.toNat := by
  have hexact := addCarry_exact x y 0
  have hsum := (addCarry x y 0).1.isLt
  have hx := x.isLt
  have hy := y.isLt
  rw [wrappingAdd]
  omega

theorem carryIn_zeroConst : carryIn zeroConst = 0 := by decide

/-! ## The values of family 3 -/

variable (ci : Uint128)

theorem ask_add_rv : (ask .add x y ci).rv = wrappingAdd x y := by
  rw [ask_eq_result]
  rfl

theorem ask_incr_rv : (ask .incr x y ci).rv = increment x := by
  rw [ask_eq_result]
  rfl

theorem ask_decr_rv : (ask .decr x y ci).rv = decrement x := by
  rw [ask_eq_result]
  rfl

theorem ask_add128_rc : (ask .add128 x y ci).rc = BitVec.ofNat 128 (addCarry x y (carryIn ci)).2 := by
  rw [ask_eq_result]
  rfl

/-- The carry out is a bit, so RC, `{127'b0, carry}`, is one exactly where it is (R100). -/
theorem ask_add128_rc_eq_one_iff : (ask .add128 x y ci).rc = 1 ↔ (addCarry x y (carryIn ci)).2 = 1 := by
  have hle := addCarry_carry_le x y (carryIn ci) (Bool.toNat_le _)
  rw [ask_add128_rc, ← BitVec.toNat_inj, BitVec.toNat_ofNat, Nat.mod_eq_of_lt (by omega)]
  rfl

end

/-! ## The statements -/

/-- Settles O14: the two constants, MAX being all ones, whatever the state. -/
theorem constantsZeroAndMax : Obligations.ConstantsZeroAndMax := by
  intro s
  have hmax : maxConst = BitVec.ofNat 128 (2 ^ 128 - 1) := by decide
  rw [← hmax]
  exact ⟨decode_encode .zero, exec_eq_answerWith_result .zero s, decode_encode .max,
    exec_eq_answerWith_result .max s⟩

/-- Settles O15: the bit is `wordsEqual`, and two words fix a value. -/
theorem eqIsStructuralEquality : Obligations.EqIsStructuralEquality := by
  intro s
  refine ⟨wordsEqual s.req.x s.req.y, decode_encode .eq, ?_, wordsEqual_eq_true_iff _ _,
    (wordsEqual_eq_true_iff _ _).trans (hi_eq_and_lo_eq_iff _ _)⟩
  rw [← eqFlags_eq_zeroExtend]
  exact exec_eq_answerWith_result .eq s

/-- Settles O16: the comparison of the words is positional comparison in base 2^64. -/
theorem cmpIsTheUnsignedOrder : Obligations.CmpIsTheUnsignedOrder := by
  intro s
  refine ⟨cmpFlags s.req.x s.req.y, decode_encode .cmp, exec_eq_answerWith_result .cmp s, cmpFlags_eq_ite _ _,
    cmpFlags_eq_eq_iff _ _, cmpFlags_eq_lt_iff _ _, cmpFlags_eq_gt_iff _ _, ?_⟩
  rw [ask_eq_rf, cmpFlags_getLsbD_zero, eqFlags_getLsbD_zero]

/-- Settles O17: LT or EQ is `≤` of the integers, which is a total order with the ends 0 and 2^128 - 1. -/
theorem cmpIsATotalOrder : Obligations.CmpIsATotalOrder := by
  unfold Obligations.CmpIsATotalOrder
  intro le
  have hle (a b : Uint128) : le a b ↔ a.toNat ≤ b.toNat := by
    rw [← cmpFlags_le_iff, ← ask_cmp_rf a b 0]
  simp only [hle, ask_zero_rv, ask_max_rv, ask_eq_rf, eqFlags_eq_one_iff, toNat_maxConst]
  refine ⟨fun _ => le_refl _, fun _ _ => le_antisymm, fun _ _ _ => le_trans, fun _ _ => le_total _ _,
    fun a b => ?_, fun _ => Nat.zero_le _, fun a => Nat.le_sub_one_of_lt a.isLt⟩
  rw [ask_cmp_rf, ask_cmp_rf, cmpFlags_eq_lt_iff, cmpFlags_eq_gt_iff]

/-- Settles O18: each answer of `CMP` is the order of the integers, where the arithmetic is exact but for the wrap. -/
theorem orderAgreesWithArithmetic : Obligations.OrderAgreesWithArithmetic := by
  simp only [Obligations.OrderAgreesWithArithmetic, ask_incr_rv, ask_decr_rv, ask_add_rv, ask_cmp_rf,
    cmpFlags_eq_lt_iff, cmpFlags_eq_gt_iff, ask_add128_rc_eq_one_iff, carryIn_zeroConst]
  exact ⟨fun _ => toNat_lt_toNat_increment, fun _ => toNat_decrement_lt_toNat, addCarry_carry_eq_one_iff⟩

end Sys2Proof.Machine
end

section
/-! PROOFS. spec/41_bitcount.md: bit length (R80), leading and trailing zeros (R81, R82), set bits (R83), the zero value
(R84), and the identities between the counts and with the reversals (R85). -/

namespace Sys2Proof.Machine

/-! ## The highest and the lowest set bit of a vector -/

section
variable {w i : Nat} {x : BitVec w}

theorem HighestSetBit.ne_zero (h : HighestSetBit x i) : x ≠ 0 := by
  rintro rfl
  simpa using h.1

theorem LowestSetBit.ne_zero (h : LowestSetBit x i) : x ≠ 0 := by
  rintro rfl
  simpa using h.1

theorem exists_highestSetBit (hx : x ≠ 0) : ∃ i, HighestSetBit x i :=
  Nat.exists_most_significant_bit fun h0 => hx (BitVec.eq_of_toNat_eq h0)

theorem exists_lowestSetBit (hx : x ≠ 0) : ∃ i, LowestSetBit x i := by
  obtain ⟨k, hk, _⟩ := exists_highestSetBit hx
  have hex : ∃ i, x.getLsbD i = true := ⟨k, hk⟩
  exact ⟨Nat.find hex, Nat.find_spec hex, fun j hj => Bool.eq_false_of_not_eq_true (Nat.find_min hex hj)⟩

theorem HighestSetBit.two_pow_le (h : HighestSetBit x i) : 2 ^ i ≤ x.toNat := Nat.ge_two_pow_of_testBit h.1

theorem HighestSetBit.lt_two_pow (h : HighestSetBit x i) : x.toNat < 2 ^ (i + 1) :=
  Nat.lt_pow_two_of_testBit _ fun j hj => h.2 j hj

/-- Divisibility by a power of two, bit by bit. -/
theorem two_pow_dvd_toNat_iff (x : BitVec w) (n : Nat) : 2 ^ n ∣ x.toNat ↔ ∀ j < n, x.getLsbD j = false := by
  have hbit (j : Nat) : (x.toNat % 2 ^ n).testBit j = (decide (j < n) && x.getLsbD j) :=
    Nat.testBit_mod_two_pow _ _ _
  rw [Nat.dvd_iff_mod_eq_zero]
  constructor
  · intro h0 j hj
    simpa [h0, hj] using hbit j
  · intro hz
    refine Nat.zero_of_testBit_eq_false fun j => ?_
    rw [hbit]
    by_cases hj : j < n
    · rw [hz j hj, Bool.and_false]
    · rw [decide_eq_false hj, Bool.false_and]

theorem LowestSetBit.two_pow_dvd (h : LowestSetBit x i) : 2 ^ i ∣ x.toNat :=
  (two_pow_dvd_toNat_iff x i).mpr h.2

theorem LowestSetBit.not_two_pow_succ_dvd (h : LowestSetBit x i) : ¬ 2 ^ (i + 1) ∣ x.toNat := by
  rw [two_pow_dvd_toNat_iff]
  intro hz
  exact Bool.false_ne_true ((hz i (Nat.lt_succ_self i)).symm.trans h.1)

end

/-! ## The set bits of a vector, as a set of indices -/

section
variable {w : Nat}

/-- The indices with `x[i] = 1`; R83 counts them. -/
def setBitIndices (x : BitVec w) : Finset Nat := (Finset.range w).filter fun i => x.getLsbD i = true

theorem setBits_eq_card (x : BitVec w) : setBits x = (setBitIndices x).card := by
  change _ = ((List.range w).filter fun i => decide (x.getLsbD i = true)).length
  simp only [Bool.decide_eq_true, ← List.countP_eq_length_filter]
  rfl

@[simp] theorem mem_setBitIndices {x : BitVec w} {i : Nat} : i ∈ setBitIndices x ↔ x.getLsbD i = true := by
  simp only [setBitIndices, Finset.mem_filter, Finset.mem_range, and_iff_right_iff_imp]
  exact BitVec.lt_of_getLsbD

theorem setBits_eq_zero_iff (x : BitVec w) : setBits x = 0 ↔ x = 0 := by
  rw [setBits, List.countP_eq_zero]
  constructor
  · intro hnone
    refine BitVec.eq_of_getLsbD_eq fun i hi => ?_
    simpa using hnone i (List.mem_range.mpr hi)
  · rintro rfl i _
    simp

theorem setBits_eq_width_iff (x : BitVec w) : setBits x = w ↔ x = BitVec.allOnes w := by
  have hiff := List.countP_eq_length (p := fun i => x.getLsbD i) (l := List.range w)
  rw [List.length_range] at hiff
  rw [setBits, hiff]
  constructor
  · intro hall
    refine BitVec.eq_of_getLsbD_eq fun i hi => ?_
    rw [hall i (List.mem_range.mpr hi), BitVec.getLsbD_allOnes, decide_eq_true hi]
  · rintro rfl i hi
    simpa using hi

/-- A permutation of the bits that is its own inverse keeps their number. -/
theorem setBits_eq_of_involution {x y : BitVec w} (σ : Nat → Nat) (hσ : ∀ i < w, σ i < w ∧ σ (σ i) = i)
    (hbit : ∀ i < w, y.getLsbD i = x.getLsbD (σ i)) : setBits y = setBits x := by
  rw [setBits_eq_card, setBits_eq_card]
  refine Finset.card_nbij' σ σ ?_ ?_ ?_ ?_
  · intro i hi
    rw [Finset.mem_coe, mem_setBitIndices] at hi ⊢
    rwa [← hbit i (BitVec.lt_of_getLsbD hi)]
  · intro i hi
    rw [Finset.mem_coe, mem_setBitIndices] at hi ⊢
    obtain ⟨hlt, hinv⟩ := hσ i (BitVec.lt_of_getLsbD hi)
    rwa [hbit _ hlt, hinv]
  all_goals
    intro i hi
    exact (hσ i (BitVec.lt_of_getLsbD (mem_setBitIndices.mp hi))).2

/-! ### Between the lowest and the highest one -/

variable {x : BitVec w} {h l : Nat}

theorem LowestSetBit.le_of_getLsbD (hl : LowestSetBit x l) {i : Nat} (hi : x.getLsbD i = true) : l ≤ i := by
  by_contra hlt
  exact Bool.false_ne_true ((hl.2 i (Nat.lt_of_not_le hlt)).symm.trans hi)

theorem HighestSetBit.ge_of_getLsbD (hh : HighestSetBit x h) {i : Nat} (hi : x.getLsbD i = true) : i ≤ h := by
  by_contra hlt
  exact Bool.false_ne_true ((hh.2 i (Nat.lt_of_not_le hlt)).symm.trans hi)

variable (hh : HighestSetBit x h) (hl : LowestSetBit x l)
include hh hl

theorem setBitIndices_subset_Icc : setBitIndices x ⊆ Finset.Icc l h := by
  intro i hi
  rw [mem_setBitIndices] at hi
  exact Finset.mem_Icc.mpr ⟨hl.le_of_getLsbD hi, hh.ge_of_getLsbD hi⟩

theorem setBits_le_span : setBits x ≤ h + 1 - l := by
  rw [setBits_eq_card, ← Nat.card_Icc]
  exact Finset.card_le_card (setBitIndices_subset_Icc hh hl)

/-- As many set bits as places from the lowest to the highest: then none of these places is free. -/
theorem setBits_eq_span_iff : setBits x = h + 1 - l ↔
    ∀ i j k, i ≤ j → j ≤ k → x.getLsbD i = true → x.getLsbD k = true → x.getLsbD j = true := by
  have hsub := setBitIndices_subset_Icc hh hl
  rw [setBits_eq_card, ← Nat.card_Icc]
  constructor
  · intro hcard i j k hij hjk hi hk
    have hfull : setBitIndices x = Finset.Icc l h := Finset.eq_of_subset_of_card_le hsub hcard.ge
    rw [← mem_setBitIndices, hfull, Finset.mem_Icc]
    exact ⟨(hl.le_of_getLsbD hi).trans hij, hjk.trans (hh.ge_of_getLsbD hk)⟩
  · intro hcontig
    refine congrArg Finset.card (hsub.antisymm fun j hj => ?_)
    obtain ⟨hlj, hjh⟩ := Finset.mem_Icc.mp hj
    exact mem_setBitIndices.mpr (hcontig l j h hlj hjh hl.1 hh.1)

/-- A single set bit is at once the lowest and the highest. -/
theorem setBits_eq_one_iff : setBits x = 1 ↔ l = h := by
  constructor
  · intro hone
    rw [setBits_eq_card] at hone
    exact Finset.card_le_one.mp hone.le l (mem_setBitIndices.mpr hl.1) h (mem_setBitIndices.mpr hh.1)
  · rintro rfl
    have hle := setBits_le_span hh hl
    have hne := mt (setBits_eq_zero_iff x).mp hl.ne_zero
    omega

end

/-! ## The counts of a value, from its two words (R80 to R83) -/

section
variable {x : Uint128} {i : Nat}

theorem hi_zero : hi 0 = 0 := by decide

theorem lo_zero : lo 0 = 0 := by decide

/-- The highest set bit lies in the high word, or in the low word below a high word of zero. -/
theorem HighestSetBit.words (h : HighestSetBit x i) :
    64 ≤ i ∧ HighestSetBit (hi x) (i - 64) ∨ i < 64 ∧ hi x = 0 ∧ HighestSetBit (lo x) i := by
  obtain ⟨hone, habove⟩ := h
  have hlt := BitVec.lt_of_getLsbD hone
  obtain hlow | hge := Nat.lt_or_ge i 64
  · refine .inr ⟨hlow, BitVec.eq_of_getLsbD_eq fun j _ => ?_, ?_, fun j hj => ?_⟩
    · rw [getLsbD_hi, habove _ (by omega), Bool.and_false, BitVec.ofNat_eq_ofNat, BitVec.getLsbD_zero]
    · rw [getLsbD_lo, decide_eq_true hlow, hone, Bool.true_and]
    · rw [getLsbD_lo, habove j hj, Bool.and_false]
  · refine .inl ⟨hge, ?_, fun j hj => ?_⟩
    · rw [getLsbD_hi, decide_eq_true (by omega), Nat.add_sub_cancel' hge, hone, Bool.true_and]
    · rw [getLsbD_hi, habove _ (by omega), Bool.and_false]

/-- The lowest set bit lies in the low word, or in the high word above a low word of zero. -/
theorem LowestSetBit.words (h : LowestSetBit x i) :
    i < 64 ∧ LowestSetBit (lo x) i ∨ 64 ≤ i ∧ lo x = 0 ∧ LowestSetBit (hi x) (i - 64) := by
  obtain ⟨hone, hbelow⟩ := h
  have hlt := BitVec.lt_of_getLsbD hone
  obtain hlow | hge := Nat.lt_or_ge i 64
  · refine .inl ⟨hlow, ?_, fun j hj => ?_⟩
    · rw [getLsbD_lo, decide_eq_true hlow, hone, Bool.true_and]
    · rw [getLsbD_lo, hbelow j hj, Bool.and_false]
  · refine .inr ⟨hge, BitVec.eq_of_getLsbD_eq fun j hj => ?_, ?_, fun j hj => ?_⟩
    · rw [getLsbD_lo, hbelow j (by omega), Bool.and_false, BitVec.ofNat_eq_ofNat, BitVec.getLsbD_zero]
    · rw [getLsbD_hi, decide_eq_true (by omega), Nat.add_sub_cancel' hge, hone, Bool.true_and]
    · rw [getLsbD_hi, hbelow _ (by omega), Bool.and_false]

theorem leadingZeros_of_highestSetBit (h : HighestSetBit x i) : leadingZeros x = 127 - i := by
  obtain ⟨hge, hhi⟩ | ⟨hlow, hzero, hlo⟩ := h.words
  · rw [leadingZeros, if_pos hhi.ne_zero, clz64_of_highestSetBit hhi]
    omega
  · rw [leadingZeros, if_neg (not_not.mpr hzero), clz64_of_highestSetBit hlo]
    omega

theorem leadingZeros_zero : leadingZeros 0 = 128 := by
  rw [leadingZeros, hi_zero, lo_zero, clz64_zero]
  rfl

theorem trailingZeros_of_lowestSetBit (h : LowestSetBit x i) : trailingZeros x = i := by
  obtain ⟨_, hlo⟩ | ⟨hge, hzero, hhi⟩ := h.words
  · rw [trailingZeros, if_pos hlo.ne_zero, ctz64_of_lowestSetBit hlo]
  · rw [trailingZeros, if_neg (not_not.mpr hzero), ctz64_of_lowestSetBit hhi, Nat.add_sub_cancel' hge]

theorem trailingZeros_zero : trailingZeros 0 = 128 := by
  rw [trailingZeros, hi_zero, lo_zero, ctz64_zero]
  rfl

variable (x)

theorem leadingZeros_le : leadingZeros x ≤ 128 := by
  have hhi : clz64 (hi x) ≤ 64 := leadingZerosFrom_le _ _
  have hlo : clz64 (lo x) ≤ 64 := leadingZerosFrom_le _ _
  unfold leadingZeros
  split <;> omega

theorem trailingZeros_le : trailingZeros x ≤ 128 := by
  have hlo : ctz64 (lo x) ≤ 64 := trailingZerosFrom_le _ _
  have hhi : ctz64 (hi x) ≤ 64 := trailingZerosFrom_le _ _
  unfold trailingZeros
  split <;> omega

/-- "The single formula `n = 128 - CLZ(X)` holds for every `X` including zero" (R80). -/
theorem bitLength_eq_sub_leadingZeros : bitLength x = 128 - leadingZeros x := by
  unfold bitLength leadingZeros
  split_ifs with hhi hlo
  · rfl
  · omega
  · rw [not_not.mp hlo, clz64_zero]

theorem bitLength_le : bitLength x ≤ 128 := by
  rw [bitLength_eq_sub_leadingZeros]
  exact Nat.sub_le _ _

theorem bitLength_zero : bitLength 0 = 0 := by
  rw [bitLength_eq_sub_leadingZeros, leadingZeros_zero]

theorem setBits_words : setBits x = setBits (lo x) + setBits (hi x) := by
  have hrange : List.range 128 = List.range 64 ++ (List.range 64).map (64 + ·) :=
    List.range_add (n := 64) (m := 64)
  rw [setBits, setBits, setBits, hrange, List.countP_append, List.countP_map]
  congr 1 <;> refine List.countP_congr fun j hj => ?_
  · rw [getLsbD_lo, decide_eq_true (List.mem_range.mp hj), Bool.true_and]
  · rw [getLsbD_hi, decide_eq_true (List.mem_range.mp hj), Bool.true_and, Function.comp_apply]

theorem onesCount_eq_setBits : onesCount x = setBits x := by
  rw [onesCount, popcnt64_eq_setBits, popcnt64_eq_setBits, setBits_words, Nat.add_comm]

theorem onesCount_le : onesCount x ≤ 128 := by
  rw [onesCount_eq_setBits]
  exact setBits_le_width x

theorem onesCount_zero : onesCount 0 = 0 := by
  rw [onesCount_eq_setBits, setBits_eq_zero_iff]

variable {x}

theorem bitLength_of_highestSetBit (h : HighestSetBit x i) : bitLength x = i + 1 := by
  have hlt := BitVec.lt_of_getLsbD h.1
  rw [bitLength_eq_sub_leadingZeros, leadingZeros_of_highestSetBit h]
  omega

end

/-! ## The reversals, bit by bit (R90, R91) -/

section
variable (x : Uint128)

theorem getLsbD_reverseBits {i : Nat} (hi : i < 128) : (reverseBits x).getLsbD i = x.getLsbD (127 - i) := by
  rw [reverseBits, getLsbD_join, getLsbD_rev64, getLsbD_rev64, getLsbD_hi, getLsbD_lo]
  split_ifs with hlow
  · have hindex : 64 + (63 - i) = 127 - i := by omega
    rw [hindex, decide_eq_true hlow, decide_eq_true (by omega), Bool.true_and, Bool.true_and]
  · have hindex : 63 - (i - 64) = 127 - i := by omega
    rw [hindex, decide_eq_true (by omega), decide_eq_true (by omega), Bool.true_and, Bool.true_and]

theorem getLsbD_reverseBytes {i : Nat} (hi : i < 128) :
    (reverseBytes x).getLsbD i = x.getLsbD (8 * (15 - i / 8) + i % 8) := by
  rw [reverseBytes, getLsbD_join, getLsbD_bswap64, getLsbD_bswap64, getLsbD_hi, getLsbD_lo]
  split_ifs with hlow
  · have hindex : 64 + (8 * (7 - i / 8) + i % 8) = 8 * (15 - i / 8) + i % 8 := by omega
    rw [hindex, decide_eq_true hlow, decide_eq_true (by omega), Bool.true_and, Bool.true_and]
  · have hindex : 8 * (7 - (i - 64) / 8) + (i - 64) % 8 = 8 * (15 - i / 8) + i % 8 := by omega
    rw [hindex, decide_eq_true (by omega), decide_eq_true (by omega), Bool.true_and, Bool.true_and]

theorem reverseBits_reverseBits : reverseBits (reverseBits x) = x := by
  refine BitVec.eq_of_getLsbD_eq fun i hi => ?_
  rw [getLsbD_reverseBits _ hi, getLsbD_reverseBits _ (by omega), Nat.sub_sub_self (by omega)]

theorem reverseBits_zero : reverseBits 0 = 0 := by
  refine BitVec.eq_of_getLsbD_eq fun i hi => ?_
  rw [getLsbD_reverseBits _ hi, BitVec.ofNat_eq_ofNat, BitVec.getLsbD_zero, BitVec.getLsbD_zero]

theorem setBits_reverseBits : setBits (reverseBits x) = setBits x :=
  setBits_eq_of_involution (127 - ·) (fun i hi => by omega) fun _ => getLsbD_reverseBits x

theorem setBits_reverseBytes : setBits (reverseBytes x) = setBits x :=
  setBits_eq_of_involution (fun i => 8 * (15 - i / 8) + i % 8) (fun i hi => by omega)
    fun _ => getLsbD_reverseBytes x

variable {x}

theorem LowestSetBit.highestSetBit_reverseBits {i : Nat} (h : LowestSetBit x i) :
    HighestSetBit (reverseBits x) (127 - i) := by
  have hlt := BitVec.lt_of_getLsbD h.1
  refine ⟨?_, fun j hj => ?_⟩
  · rw [getLsbD_reverseBits x (by omega), Nat.sub_sub_self (by omega), h.1]
  · obtain hj' | hj' := Nat.lt_or_ge j 128
    · rw [getLsbD_reverseBits x hj', h.2 _ (by omega)]
    · exact BitVec.getLsbD_of_ge _ _ hj'

variable (x)

theorem leadingZeros_reverseBits : leadingZeros (reverseBits x) = trailingZeros x := by
  by_cases hx : x = 0
  · rw [hx, reverseBits_zero, leadingZeros_zero, trailingZeros_zero]
  · obtain ⟨i, hi⟩ := exists_lowestSetBit hx
    have hlt := BitVec.lt_of_getLsbD hi.1
    rw [leadingZeros_of_highestSetBit hi.highestSetBit_reverseBits, trailingZeros_of_lowestSetBit hi,
      Nat.sub_sub_self (by omega)]

theorem trailingZeros_reverseBits : trailingZeros (reverseBits x) = leadingZeros x := by
  rw [← leadingZeros_reverseBits, reverseBits_reverseBits]

end

/-! ## The values of families 1 and 2 -/

/-- A count is at most 128, so the eight bits of RN hold it (R80). -/
theorem driveRN_rn_toNat {n : Nat} (h : n ≤ 128) : (driveRN n).rn.toNat = n :=
  Nat.mod_eq_of_lt (Nat.lt_of_le_of_lt h (by decide))

section
variable (x y ci : Uint128)

theorem ask_len_rn_toNat : (ask .len x y ci).rn.toNat = bitLength x := by
  rw [ask_eq_result]
  exact driveRN_rn_toNat (bitLength_le x)

theorem ask_clz_rn_toNat : (ask .clz x y ci).rn.toNat = leadingZeros x := by
  rw [ask_eq_result]
  exact driveRN_rn_toNat (leadingZeros_le x)

theorem ask_ctz_rn_toNat : (ask .ctz x y ci).rn.toNat = trailingZeros x := by
  rw [ask_eq_result]
  exact driveRN_rn_toNat (trailingZeros_le x)

theorem ask_popcnt_rn_toNat : (ask .popcnt x y ci).rn.toNat = setBits x := by
  rw [ask_eq_result, ← onesCount_eq_setBits]
  exact driveRN_rn_toNat (onesCount_le x)

theorem ask_rev_rv : (ask .rev x y ci).rv = reverseBits x := by
  rw [ask_eq_result]
  rfl

theorem ask_revb_rv : (ask .revb x y ci).rv = reverseBytes x := by
  rw [ask_eq_result]
  rfl

end

theorem maxConst_eq_allOnes : maxConst = BitVec.allOnes 128 := by decide

/-! ## The statements -/

/-- Settles O19: the bit length is 128 less the leading zeros, one more than the highest set bit. -/
theorem lenIsTheBitLength : Obligations.LenIsTheBitLength := by
  intro s
  refine ⟨bitLength s.req.x, decode_encode .len, exec_eq_answerWith_result .len s, bitLength_le _,
    fun hx => hx ▸ bitLength_zero, fun i => bitLength_of_highestSetBit, rfl, ?_, fun hx => ?_⟩
  · rw [ask_clz_rn_toNat, bitLength_eq_sub_leadingZeros]
  · obtain ⟨i, hi⟩ := exists_highestSetBit hx
    rw [bitLength_of_highestSetBit hi]
    exact ⟨hi.two_pow_le, hi.lt_two_pow⟩

/-- Settles O20: the highest set bit of the value is that of one of its words. -/
theorem clzCountsLeadingZeros : Obligations.ClzCountsLeadingZeros := fun s =>
  ⟨leadingZeros s.req.x, decode_encode .clz, exec_eq_answerWith_result .clz s, leadingZeros_le _,
    fun hx => hx ▸ leadingZeros_zero, fun _ => leadingZeros_of_highestSetBit, rfl⟩

/-- Settles O21: the lowest set bit of the value is that of one of its words, and it bounds the powers of two that
divide the value. -/
theorem ctzCountsTrailingZeros : Obligations.CtzCountsTrailingZeros := by
  intro s
  refine ⟨trailingZeros s.req.x, decode_encode .ctz, exec_eq_answerWith_result .ctz s, trailingZeros_le _,
    fun hx => hx ▸ trailingZeros_zero, fun i => trailingZeros_of_lowestSetBit, rfl, fun hx => ?_⟩
  obtain ⟨i, hi⟩ := exists_lowestSetBit hx
  rw [trailingZeros_of_lowestSetBit hi]
  exact ⟨hi.two_pow_dvd, hi.not_two_pow_succ_dvd⟩

/-- Settles O22: the counts of the two words add up to the number of set bits, whose two ends are the constants. -/
theorem popcntCountsSetBits : Obligations.PopcntCountsSetBits := by
  intro s
  refine ⟨onesCount s.req.x, decode_encode .popcnt, exec_eq_answerWith_result .popcnt s, onesCount_le _,
    onesCount_eq_setBits _, rfl, ?_, ?_⟩
  · rw [onesCount_eq_setBits, setBits_eq_zero_iff]
  · rw [onesCount_eq_setBits, setBits_eq_width_iff, maxConst_eq_allOnes]

/-- Settles O23: each count of the value zero. -/
theorem countsOfTheZeroValue : Obligations.CountsOfTheZeroValue := by
  intro s hx
  simp only [exec_eq_answerWith_result, result, hx, bitLength_zero, leadingZeros_zero, trailingZeros_zero,
    onesCount_zero]
  exact ⟨rfl, rfl, rfl, rfl⟩

/-- Settles O24: LEN and CTZ are the ends of the interval of indices that holds the set bits, and a reversal permutes
the indices. -/
theorem countIdentities : Obligations.CountIdentities := by
  unfold Obligations.CountIdentities
  intro n v x
  simp only [n, v, ask_len_rn_toNat, ask_clz_rn_toNat, ask_ctz_rn_toNat, ask_popcnt_rn_toNat, ask_rev_rv,
    ask_revb_rv]
  refine ⟨?_, fun hx => ?_, leadingZeros_reverseBits x, trailingZeros_reverseBits x, setBits_reverseBits x,
    setBits_reverseBytes x⟩
  · rw [bitLength_eq_sub_leadingZeros, Nat.add_sub_cancel' (leadingZeros_le x)]
  · obtain ⟨h, hh⟩ := exists_highestSetBit hx
    obtain ⟨l, hl⟩ := exists_lowestSetBit hx
    rw [bitLength_of_highestSetBit hh, trailingZeros_of_lowestSetBit hl, Nat.add_left_inj]
    exact ⟨Nat.succ_le_succ (hl.le_of_getLsbD hh.1), setBits_le_span hh hl, setBits_eq_span_iff hh hl,
      setBits_eq_one_iff hh hl⟩

end Sys2Proof.Machine
end

section
/-! PROOFS. spec/42_reverse.md: bit reversal (R90), byte reversal (R91), involutions that keep the number of set bits
(R92, R93), and the two reversals together (R94). -/

namespace Sys2Proof.Machine

/-! ## The two reversals as permutations of the bits (R90 to R94) -/

section
variable (x : Uint128)

/-- Byte `15 - k` of the byte reversal is byte `k` (R91). -/
theorem extractLsb'_reverseBytes {k : Nat} (hk : k < 16) :
    (reverseBytes x).extractLsb' (8 * (15 - k)) 8 = x.extractLsb' (8 * k) 8 := by
  refine BitVec.eq_of_getLsbD_eq fun j hj => ?_
  have hindex : 8 * (15 - (8 * (15 - k) + j) / 8) + (8 * (15 - k) + j) % 8 = 8 * k + j := by omega
  rw [BitVec.getLsbD_extractLsb', BitVec.getLsbD_extractLsb', getLsbD_reverseBytes x (by omega), hindex]

theorem reverseBytes_reverseBytes : reverseBytes (reverseBytes x) = x := by
  refine BitVec.eq_of_getLsbD_eq fun i hi => ?_
  rw [getLsbD_reverseBytes _ hi, getLsbD_reverseBytes _ (by omega)]
  exact congrArg x.getLsbD (by omega)

/-- Bit `i` is bit `i % 8` of byte `i / 8`: the byte stays in place and its bits are reversed (R94). -/
theorem getLsbD_reverseBits_reverseBytes {i : Nat} (hi : i < 128) :
    (reverseBits (reverseBytes x)).getLsbD i = x.getLsbD (8 * (i / 8) + 7 - i % 8) := by
  rw [getLsbD_reverseBits _ hi, getLsbD_reverseBytes _ (by omega)]
  exact congrArg x.getLsbD (by omega)

theorem reverseBits_reverseBytes : reverseBits (reverseBytes x) = reverseBytes (reverseBits x) := by
  refine BitVec.eq_of_getLsbD_eq fun i hi => ?_
  rw [getLsbD_reverseBits_reverseBytes x hi, getLsbD_reverseBytes _ hi, getLsbD_reverseBits _ (by omega)]
  exact congrArg x.getLsbD (by omega)

end

/-! ## Operations that permute the bits by an involution (R92, R93) -/

/-- `POPCNT` answers the same for two values with as many set bits. -/
theorem ask_popcnt_rn_congr {x x' : Uint128} (h : setBits x = setBits x') (y ci : Uint128) :
    (ask .popcnt x y ci).rn = (ask .popcnt x' y ci).rn := by
  apply BitVec.eq_of_toNat_eq
  rw [ask_popcnt_rn_toNat, ask_popcnt_rn_toNat, h]

/-- What R92 and R93 say of an operation follows from the function that its RV is of X. -/
theorem involution_laws {i : Instr} {f : Uint128 → Uint128} (hrv : ∀ x, (ask i x 0 0).rv = f x)
    (hinv : Function.Involutive f) (hbits : ∀ x, setBits (f x) = setBits x) :
    (∀ x, (ask i (ask i x 0 0).rv 0 0).rv = x) ∧ Function.Bijective (fun x => (ask i x 0 0).rv) ∧
      ∀ x, (ask .popcnt (ask i x 0 0).rv 0 0).rn = (ask .popcnt x 0 0).rn := by
  simp only [hrv]
  exact ⟨hinv, hinv.bijective, fun x => ask_popcnt_rn_congr (hbits x) 0 0⟩

/-! ## The statements -/

/-- Settles O25: bit `127 - i` of the bit reversal is bit `i`, and its words are the two words reversed and swapped. -/
theorem revReversesTheBits : Obligations.RevReversesTheBits := by
  intro s
  refine ⟨reverseBits s.req.x, decode_encode .rev, exec_eq_answerWith_result .rev s, fun i hi => ?_,
    hi_join _ _, lo_join _ _⟩
  rw [getLsbD_reverseBits _ (by omega), Nat.sub_sub_self (by omega)]

/-- Settles O26: byte `15 - k` of the byte reversal is byte `k`, and its words are the two words byte-reversed and
swapped. -/
theorem revbReversesTheBytes : Obligations.RevbReversesTheBytes := fun s =>
  ⟨reverseBytes s.req.x, decode_encode .revb, exec_eq_answerWith_result .revb s,
    fun _ => extractLsb'_reverseBytes s.req.x, hi_join _ _, lo_join _ _⟩

/-- Settles O27: each reversal permutes the bits by an involution of the indices. -/
theorem reversalsAreInvolutions : Obligations.ReversalsAreInvolutions := by
  intro i hi
  obtain rfl | rfl := List.mem_pair.mp hi
  · exact involution_laws (ask_rev_rv · 0 0) reverseBits_reverseBits setBits_reverseBits
  · exact involution_laws (ask_revb_rv · 0 0) reverseBytes_reverseBytes setBits_reverseBytes

/-- Settles O28: in either order, the reversals take bit `j` of a byte from bit `7 - j` of the same byte. -/
theorem reversalsCommute : Obligations.ReversalsCommute := by
  intro x
  simp only [ask_rev_rv, ask_revb_rv]
  refine ⟨reverseBits_reverseBytes x, fun k j hk hj => ?_⟩
  have hbyte : (8 * k + j) / 8 = k := by omega
  have hbit : (8 * k + j) % 8 = j := by omega
  rw [getLsbD_reverseBits_reverseBytes x (by omega), hbyte, hbit]

end Sys2Proof.Machine
end

section
/-! PROOFS. spec/43_arith.md: addition with carry (R100, R101), the wrapping operations (R102 to R104), chained addition
(R105), overflow detection (R107), and the inverse pair INCR and DECR (R108). -/

namespace Sys2Proof.Machine

/-! ## One word of the adder (R100) -/

section
variable (a b : Word) {c : Nat}

theorem toNat_addWord (c : Nat) : (addWord a b c).1.toNat = (a.toNat + b.toNat + c) % 2 ^ 64 := by
  rw [addWord, BitVec.toNat_ofNat, Nat.mod_mod]

/-- A carry leaves the word exactly where one of the two additions of a 64-bit adder wraps: that of the operands, or
that of the carry in (R100). -/
theorem addWord_carry_eq_one_iff (hc : c ≤ 1) : (addWord a b c).2 = 1 ↔
    (a + b).toNat < a.toNat ∨ (addWord a b c).1.toNat < (a + b).toNat := by
  have ha := a.isLt
  have hb := b.isLt
  rw [toNat_addWord, BitVec.toNat_add, addWord]
  omega

/-- The two additions never both wrap (R100). -/
theorem not_addWord_wraps_twice (hc : c ≤ 1) :
    ¬ ((a + b).toNat < a.toNat ∧ (addWord a b c).1.toNat < (a + b).toNat) := by
  have ha := a.isLt
  have hb := b.isLt
  rw [toNat_addWord, BitVec.toNat_add]
  omega

end

/-! ## The two-word adder (R100, R101) -/

section
variable (x y ci : Uint128)

theorem lo_addCarry (c : Nat) : lo (addCarry x y c).1 = (addWord (lo x) (lo y) c).1 := lo_join _ _

theorem hi_addCarry (c : Nat) :
    hi (addCarry x y c).1 = (addWord (hi x) (hi y) (addWord (lo x) (lo y) c).2).1 := hi_join _ _

theorem toNat_addCarry (c : Nat) : (addCarry x y c).1.toNat = (x.toNat + y.toNat + c) % 2 ^ 128 := by
  rw [← addCarry_exact, Nat.mul_add_mod_self_right, Nat.mod_eq_of_lt (addCarry x y c).1.isLt]

theorem carryIn_le_one : carryIn ci ≤ 1 := Bool.toNat_le _

/-- ST is 10 where the contract of CI is broken, and 00 where it is kept (R101). -/
theorem addStatus_eq_ite : addStatus ci = if ci.toNat / 2 = 0 then 0b00#2 else 0b10#2 := by
  have hdirty := carryInDirty_iff ci
  rw [addStatus]
  split_ifs with h
  · rw [Bool.eq_false_of_not_eq_true fun hd => hdirty.mp hd h]
    rfl
  · rw [hdirty.mpr h]
    rfl

theorem addStatus_eq_zero_iff : addStatus ci = 0b00#2 ↔ ci.toNat ≤ 1 := by
  rw [addStatus_eq_ite]
  split_ifs with h
  · exact iff_of_true rfl (by omega)
  · exact iff_of_false (by decide) (by omega)

theorem addStatus_eq_civ_iff : addStatus ci = 0b10#2 ↔ ci.toNat / 2 ≠ 0 := by
  rw [addStatus_eq_ite]
  split_ifs with h
  · exact iff_of_false (by decide) (not_not.mpr h)
  · exact iff_of_true rfl h

/-- The quotient by two holds the bits from bit 1 on. -/
theorem toNat_div_two_ne_zero_iff : ci.toNat / 2 ≠ 0 ↔ ∃ i, 1 ≤ i ∧ ci.getLsbD i = true := by
  constructor
  · intro h
    obtain ⟨j, hj⟩ := Nat.exists_testBit_of_ne_zero h
    exact ⟨j + 1, Nat.le_add_left 1 j, (Nat.testBit_succ _ j).trans hj⟩
  · rintro ⟨i, hi, hbit⟩ h
    obtain ⟨j, rfl⟩ := Nat.exists_eq_add_of_le' hi
    rw [BitVec.getLsbD, Nat.testBit_succ, h, Nat.zero_testBit] at hbit
    cases hbit

theorem toNat_le_one_iff : ci.toNat ≤ 1 ↔ ci = 0 ∨ ci = 1 := by
  rw [← BitVec.toNat_inj, ← BitVec.toNat_inj]
  exact Nat.le_one_iff_eq_zero_or_eq_one

/-! ## The response of `ADD128` -/

theorem ask_add128_rv : (ask .add128 x y ci).rv = (addCarry x y (carryIn ci)).1 := by
  rw [ask_eq_result]
  rfl

theorem ask_add128_st : (ask .add128 x y ci).st = addStatus ci := by
  rw [ask_eq_result]
  rfl

theorem ask_add128_rc_toNat : (ask .add128 x y ci).rc.toNat = (addCarry x y (carryIn ci)).2 := by
  have hle := addCarry_carry_le x y _ (carryIn_le_one ci)
  rw [ask_add128_rc, BitVec.toNat_ofNat, Nat.mod_eq_of_lt (by omega)]

theorem ask_add128_rc_le_one : (ask .add128 x y ci).rc.toNat ≤ 1 := by
  rw [ask_add128_rc_toNat]
  exact addCarry_carry_le x y _ (carryIn_le_one ci)

/-- "`RC[0] · 2^128 + RV = X + Y + CI[0]`, exactly" (R100). -/
theorem ask_add128_exact : (ask .add128 x y ci).rc.toNat * 2 ^ 128 + (ask .add128 x y ci).rv.toNat =
    x.toNat + y.toNat + carryIn ci := by
  rw [ask_add128_rc_toNat, ask_add128_rv, addCarry_exact]

end

/-! ## The wrapping operations (R102 to R104, R107, R108) -/

section
variable (x y : Uint128)

theorem toNat_wrappingAdd : (wrappingAdd x y).toNat = (x.toNat + y.toNat) % 2 ^ 128 :=
  toNat_addCarry x y 0

theorem lo_increment : lo (increment x) = lo x + 1 := lo_join _ _

theorem hi_increment_of_carry (h : lo x = 0xFFFFFFFFFFFFFFFF#64) : hi (increment x) = hi x + 1 := by
  rw [increment, hi_join, h]
  rfl

theorem hi_increment_of_no_carry (h : lo x ≠ 0xFFFFFFFFFFFFFFFF#64) : hi (increment x) = hi x := by
  rw [increment, hi_join, beq_eq_false_iff_ne.mpr h]
  exact BitVec.add_zero _

theorem increment_eq_wrappingAdd : increment x = wrappingAdd x (join 0 1) := by
  apply BitVec.eq_of_toNat_eq
  rw [toNat_increment, toNat_wrappingAdd]
  rfl

theorem lo_decrement : lo (decrement x) = lo x - 1 := lo_join _ _

theorem hi_decrement_of_borrow (h : lo x = 0#64) : hi (decrement x) = hi x - 1 := by
  rw [decrement, hi_join, h]
  rfl

theorem hi_decrement_of_no_borrow (h : lo x ≠ 0#64) : hi (decrement x) = hi x := by
  rw [decrement, hi_join, beq_eq_false_iff_ne.mpr h]
  exact BitVec.sub_zero _

theorem decrement_eq_wrappingAdd : decrement x = wrappingAdd x maxConst := by
  apply BitVec.eq_of_toNat_eq
  rw [toNat_decrement, toNat_wrappingAdd, toNat_maxConst]

theorem toNat_decrement_of_ne_zero (h : x ≠ 0) : (decrement x).toNat = x.toNat - 1 := by
  have hpos : x.toNat ≠ 0 := BitVec.toNat_ne.mp h
  have hlt := x.isLt
  rw [toNat_decrement]
  omega

theorem decrement_increment : decrement (increment x) = x := by
  have hlt := x.isLt
  apply BitVec.eq_of_toNat_eq
  rw [toNat_decrement, toNat_increment]
  omega

theorem increment_decrement : increment (decrement x) = x := by
  have hlt := x.isLt
  apply BitVec.eq_of_toNat_eq
  rw [toNat_increment, toNat_decrement]
  omega

theorem increment_maxConst : increment maxConst = zeroConst := by decide

theorem decrement_zeroConst : decrement zeroConst = maxConst := by decide

/-- Without a carry in, a wrapped sum is below both operands or below neither (R107). -/
theorem wrappingAdd_lt_left_iff_lt_right :
    (wrappingAdd x y).toNat < x.toNat ↔ (wrappingAdd x y).toNat < y.toNat := by
  have hx := x.isLt
  have hy := y.isLt
  rw [toNat_wrappingAdd]
  omega

/-- With a carry in, adding MaxUint128 gives back the operand and a carry (R107). -/
theorem ask_add128_maxConst_one :
    (ask .add128 x maxConst 1).rc = 1 ∧ (ask .add128 x maxConst 1).rv = x := by
  have hexact := ask_add128_exact x maxConst 1
  have hcarry : carryIn 1 = 1 := by decide
  have hrv := (ask .add128 x maxConst 1).rv.isLt
  have hx := x.isLt
  rw [toNat_maxConst, hcarry] at hexact
  constructor <;> apply BitVec.eq_of_toNat_eq
  · change _ = 1
    omega
  · omega

end

/-! ## Chained addition (R105) -/

section
variable (carry a b : Uint128) (pairs : List (Uint128 × Uint128))

theorem chainAdd_cons : chainAdd carry ((a, b) :: pairs) =
    ask .add128 a b carry :: chainAdd (ask .add128 a b carry).rc pairs := rfl

theorem chainCarry_cons (r : Response) (rs : List Response) :
    chainCarry carry (r :: rs) = chainCarry r.rc rs := by
  rw [chainCarry, chainCarry, List.getLast?_cons]
  cases rs.getLast? <;> rfl

variable {carry}

theorem carryIn_of_le_one (h : carry.toNat ≤ 1) : carryIn carry = carry.toNat := by
  rw [carryIn_eq_mod]
  omega

/-- The chain from any carry that keeps the contract: that carry counts as one more summand. -/
theorem limbs_chainAdd (h : carry.toNat ≤ 1) :
    limbs ((chainAdd carry pairs).map Response.rv) +
        (chainCarry carry (chainAdd carry pairs)).toNat * 2 ^ (128 * pairs.length) =
      limbs (pairs.map Prod.fst) + limbs (pairs.map Prod.snd) + carry.toNat := by
  induction pairs generalizing carry with
  | nil => simp [chainAdd, chainCarry, limbs]
  | cons p pairs ih =>
    obtain ⟨a, b⟩ := p
    have hlimb := ask_add128_exact a b carry
    have hrest := ih (ask_add128_rc_le_one a b carry)
    rw [carryIn_of_le_one h] at hlimb
    rw [chainAdd_cons, chainCarry_cons, List.length_cons, Nat.mul_succ, pow_add]
    simp only [List.map_cons, limbs]
    linear_combination hlimb + 2 ^ 128 * hrest

theorem chainAdd_clean (h : carry.toNat ≤ 1) : ∀ r ∈ chainAdd carry pairs, r.st = 0 ∧ r.rc.toNat ≤ 1 := by
  induction pairs generalizing carry with
  | nil => simp [chainAdd]
  | cons p pairs ih =>
    obtain ⟨a, b⟩ := p
    have hrc := ask_add128_rc_le_one a b carry
    rw [chainAdd_cons, List.forall_mem_cons, ask_add128_st]
    exact ⟨⟨(addStatus_eq_zero_iff carry).mpr h, hrc⟩, ih hrc⟩

end

/-! ## The statements -/

/-- Settles O29: each word of the adder is exact and detects its carry, and the two words make up the sum. -/
theorem add128IsExact : Obligations.Add128IsExact := by
  intro s
  have hc := carryIn_le_one s.req.ci
  have hc' := addWord_carry_le (lo s.req.x) (lo s.req.y) _ hc
  rw [← carryIn_eq_mod, ← addStatus_eq_ite]
  refine ⟨_, _, decode_encode .add128, exec_eq_answerWith_result .add128 s, addCarry_carry_le _ _ _ hc,
    addCarry_exact _ _ _, ?_⟩
  rw [lo_addCarry, hi_addCarry]
  exact ⟨toNat_addWord _ _ _, toNat_addWord _ _ _, rfl,
    ⟨addWord_carry_eq_one_iff _ _ hc, not_addWord_wraps_twice _ _ hc⟩,
    ⟨addWord_carry_eq_one_iff _ _ hc', not_addWord_wraps_twice _ _ hc'⟩⟩

/-- Settles O30: the adder is given bit 0 of CI alone, and the status is read off the other bits. -/
theorem onlyBitZeroOfCarryInCounts : Obligations.OnlyBitZeroOfCarryInCounts := by
  intro x y ci ci'
  refine ⟨fun hbit => ?_, ?_, ?_⟩
  · have hcarry : carryIn ci = carryIn ci' := congrArg Bool.toNat hbit
    rw [ask_add128_rv, ask_add128_rv, ask_add128_rc, ask_add128_rc, hcarry]
    exact ⟨rfl, rfl⟩
  · rw [ask_add128_st, addStatus_eq_civ_iff, toNat_div_two_ne_zero_iff]
  · rw [ask_add128_st, addStatus_eq_zero_iff, toNat_le_one_iff]

/-- Settles O31: the wrapping sum is the sum part of the adder without a carry in. -/
theorem addWraps : Obligations.AddWraps := by
  intro s
  refine ⟨wrappingAdd s.req.x s.req.y, decode_encode .add, exec_eq_answerWith_result .add s, toNat_wrappingAdd _ _,
    ⟨?_, ?_⟩, ?_⟩
  · rw [wrappingAdd, lo_addCarry, toNat_addWord, Nat.add_zero]
  · rw [wrappingAdd, hi_addCarry, toNat_addWord]
    rfl
  · rw [ask_add128_rv, carryIn_zeroConst, wrappingAdd]

/-- Settles O32: the carry out of the low word is the condition on which the high word changes. -/
theorem incrAddsOne : Obligations.IncrAddsOne := by
  intro s
  rw [ask_add_rv]
  exact ⟨increment s.req.x, decode_encode .incr, exec_eq_answerWith_result .incr s, toNat_increment _,
    lo_increment _, hi_increment_of_carry _, hi_increment_of_no_carry _, increment_eq_wrappingAdd _⟩

/-- Settles O33: the borrow of the low word is the condition on which the high word changes. -/
theorem decrSubtractsOne : Obligations.DecrSubtractsOne := by
  intro s
  rw [ask_add_rv]
  exact ⟨decrement s.req.x, decode_encode .decr, exec_eq_answerWith_result .decr s, toNat_decrement_of_ne_zero _,
    fun hx => hx ▸ toNat_maxConst, lo_decrement _, hi_decrement_of_borrow _, hi_decrement_of_no_borrow _,
    decrement_eq_wrappingAdd _⟩

/-- Settles O34, by induction on the limbs for every carry that enters the chain. -/
theorem chainedAdditionIsExact : Obligations.ChainedAdditionIsExact := by
  intro pairs
  have hzero : zeroConst.toNat ≤ 1 := by decide
  exact ⟨limbs_chainAdd pairs hzero, chainAdd_clean pairs hzero⟩

/-- Settles O35: a carry leaves the adder where the wrapped sum is below both operands, and it is never below
one of them only. -/
theorem overflowDetectionIsConsistent : Obligations.OverflowDetectionIsConsistent := by
  refine ⟨fun x y => ?_, ask_add128_maxConst_one⟩
  have hboth := addCarry_carry_eq_one_iff x y
  have hsame := wrappingAdd_lt_left_iff_lt_right x y
  rw [ask_add_rv, ask_cmp_rf, ask_cmp_rf, cmpFlags_eq_lt_iff, cmpFlags_eq_lt_iff, ask_add128_rc_eq_one_iff,
    carryIn_zeroConst]
  exact ⟨hboth, hboth.trans (and_iff_left_of_imp hsame.mp), hboth.trans (and_iff_right_of_imp hsame.mpr)⟩

/-- Settles O36: adding and subtracting one modulo 2^128 undo each other. -/
theorem incrAndDecrAreInverse : Obligations.IncrAndDecrAreInverse := by
  simp only [Obligations.IncrAndDecrAreInverse, ask_incr_rv, ask_decr_rv]
  exact ⟨fun x => ⟨decrement_increment x, increment_decrement x⟩,
    Function.bijective_iff_has_inverse.mpr ⟨decrement, decrement_increment, increment_decrement⟩,
    Function.bijective_iff_has_inverse.mpr ⟨increment, increment_decrement, decrement_increment⟩,
    increment_maxConst, decrement_zeroConst⟩

end Sys2Proof.Machine
end

section
/-! PROOFS. spec/44_format.md: the canonical numeral (R110, R111), its characters and the text port (R112, R123), the
direct forms of the six operations (R114 to R119), the seam of the words (R120 to R122), and the laws of the texts
(R124). -/

namespace Sys2Proof.Machine

/-! ## The canonical numeral of a number (R110) -/

/-- The canonical digits of a number in base `b`, the most significant first. -/
def numeral (b v : Nat) : List Nat := if v = 0 then [0] else (Nat.digits b v).reverse

section
variable {b : Nat} (v : Nat)

theorem numeral_zero : numeral b 0 = [0] := rfl

theorem numeral_of_ne_zero {v : Nat} (hv : v ≠ 0) : numeral b v = (Nat.digits b v).reverse := if_neg hv

theorem canonicalDigits_eq_numeral (hb : 1 < b) (x : Uint128) : canonicalDigits b x = numeral b x.toNat := by
  by_cases hx : x = 0
  · subst hx
    rfl
  · rw [canonicalDigits_of_ne_zero b hb x hx, numeral_of_ne_zero (BitVec.toNat_ne_iff_ne.mpr hx)]

theorem ofDigits_reverse_numeral : Nat.ofDigits b (numeral b v).reverse = v := by
  by_cases hv : v = 0
  · subst hv
    rfl
  · rw [numeral_of_ne_zero hv, List.reverse_reverse, Nat.ofDigits_digits]

variable (hb : 1 < b)
include hb

theorem lt_of_mem_numeral {d : Nat} (hd : d ∈ numeral b v) : d < b := by
  by_cases hv : v = 0
  · rw [hv, numeral_zero, List.mem_singleton] at hd
    omega
  · rw [numeral_of_ne_zero hv, List.mem_reverse] at hd
    exact Nat.digits_lt_base hb hd

theorem numeral_length_pos : 0 < (numeral b v).length := by
  by_cases hv : v = 0
  · rw [hv, numeral_zero]
    exact Nat.one_pos
  · rw [numeral_of_ne_zero hv, List.length_reverse, Nat.lt_digits_length_iff hb, Nat.pow_zero]
    exact Nat.pos_of_ne_zero hv

/-- A numeral has at most `k` digits where the number lies below the `k`-th power of the base. -/
theorem numeral_length_le_iff {k : Nat} (hk : 0 < k) : (numeral b v).length ≤ k ↔ v < b ^ k := by
  by_cases hv : v = 0
  · rw [hv, numeral_zero]
    exact iff_of_true hk (Nat.pow_pos (Nat.zero_lt_of_lt hb))
  · rw [numeral_of_ne_zero hv, List.length_reverse, Nat.digits_length_le_iff hb]

theorem lt_numeral_length_iff {k : Nat} (hk : 0 < k) : k < (numeral b v).length ↔ b ^ k ≤ v := by
  rw [← not_le, numeral_length_le_iff v hb hk, not_lt]

theorem lt_pow_numeral_length : v < b ^ (numeral b v).length :=
  (numeral_length_le_iff v hb (numeral_length_pos v hb)).mp le_rfl

theorem pow_numeral_length_sub_one_le {v : Nat} (hv : v ≠ 0) : b ^ ((numeral b v).length - 1) ≤ v := by
  rw [numeral_of_ne_zero hv, List.length_reverse, ← Nat.lt_digits_length_iff hb]
  exact Nat.sub_one_lt (List.length_pos_of_ne_nil (Nat.digits_ne_nil_iff_ne_zero.mpr hv)).ne'

/-- A numeral has `k + 1` digits where the number lies between these powers of the base. -/
theorem numeral_length_eq_succ_iff {k : Nat} (hk : 0 < k) :
    (numeral b v).length = k + 1 ↔ b ^ k ≤ v ∧ v < b ^ (k + 1) := by
  rw [← lt_numeral_length_iff v hb hk, ← numeral_length_le_iff v hb k.succ_pos]
  omega

/-- Digit `k` from the left is digit `n - 1 - k` of the positional representation. -/
theorem numeral_getElem {k : Nat} (hk : k < (numeral b v).length) :
    (numeral b v)[k] = v / b ^ ((numeral b v).length - 1 - k) % b := by
  by_cases hv : v = 0
  · subst hv
    simp [numeral_zero]
  · simp only [numeral_of_ne_zero hv, List.length_reverse, List.getElem_reverse] at hk ⊢
    rw [← Nat.getD_digits v _ hb, List.getD_eq_getElem _ 0 (by omega)]

/-- Only the number zero has the digit 0 in front. -/
theorem eq_zero_of_numeral_head (h : (numeral b v)[0]'(numeral_length_pos v hb) = 0) : v = 0 := by
  by_contra hv
  have hpow : 0 < b ^ ((numeral b v).length - 1) := Nat.pow_pos (Nat.zero_lt_of_lt hb)
  have hlt : v / b ^ ((numeral b v).length - 1) < b := by
    rw [Nat.div_lt_iff_lt_mul hpow, mul_pow_sub_one (numeral_length_pos v hb).ne']
    exact lt_pow_numeral_length v hb
  rw [numeral_getElem v hb, Nat.sub_zero, Nat.mod_eq_of_lt hlt] at h
  exact (Nat.div_pos (pow_numeral_length_sub_one_le hb hv) hpow).ne' h

theorem canonical_numeral : Canonical b v (numeral b v) := by
  refine ⟨fun d => lt_of_mem_numeral v hb, ofDigits_reverse_numeral v, fun hv => by rw [hv, numeral_zero],
    fun hv hhead => hv (eq_zero_of_numeral_head v hb ?_)⟩
  rwa [List.head?_eq_getElem?, List.getElem?_eq_getElem (numeral_length_pos v hb), Option.some_inj] at hhead

/-- "The unique sequence of digits" (R110). -/
theorem eq_numeral_of_canonical {v : Nat} {es : List Nat} (h : Canonical b v es) : es = numeral b v := by
  obtain ⟨hlt, hval, hzero, hhead⟩ := h
  by_cases hv : v = 0
  · rw [hzero hv, hv, numeral_zero]
  · rw [numeral_of_ne_zero hv, ← hval, Nat.digits_ofDigits b hb, List.reverse_reverse]
    · exact fun d hd => hlt d (List.mem_reverse.mp hd)
    · intro hne h0
      rw [List.getLast_reverse] at h0
      exact hhead hv (h0 ▸ List.head?_eq_some_head _)

/-- The numeral of `h * b ^ w + l`: that of the upper part, then that of the lower part padded to `w` digits. -/
theorem numeral_append {h l w : Nat} (hh : h ≠ 0) (hw : 0 < w) (hl : l < b ^ w) :
    numeral b (h * b ^ w + l) =
      numeral b h ++ (List.replicate (w - (numeral b l).length) 0 ++ numeral b l) := by
  have hb0 : 0 < b := Nat.zero_lt_of_lt hb
  have hpad : List.replicate (w - (numeral b l).length) 0 ++ numeral b l =
      (Nat.digits b l ++ List.replicate (w - (Nat.digits b l).length) 0).reverse := by
    by_cases h0 : l = 0
    · obtain ⟨w, rfl⟩ := Nat.exists_eq_add_one.mpr hw
      subst h0
      simp only [numeral_zero, Nat.digits_zero, List.nil_append, List.reverse_replicate, List.length_singleton,
        List.length_nil]
      exact List.replicate_succ'.symm
    · simp [numeral_of_ne_zero h0]
  have hlen : (Nat.digits b l).length ≤ w := (Nat.digits_length_le_iff hb l).mpr hl
  have hne : h * b ^ w + l ≠ 0 := by
    have := Nat.mul_pos (Nat.pos_of_ne_zero hh) (Nat.pow_pos (n := w) hb0)
    omega
  have hsum : h * b ^ w + l = l + b ^ ((Nat.digits b l).length + (w - (Nat.digits b l).length)) * h := by
    rw [Nat.add_sub_cancel' hlen, Nat.add_comm, Nat.mul_comm]
  rw [hpad, numeral_of_ne_zero hne, numeral_of_ne_zero hh, ← List.reverse_append, hsum,
    Nat.digits_append_zeroes_append_digits hb (Nat.pos_of_ne_zero hh)]

end

/-! ## Bases that are powers of two (R111, R114, R115, R117) -/

section
variable (x : Uint128)

/-- The bit length is the least exponent of a power of two above the value (R80). -/
theorem bitLength_le_iff (k : Nat) : bitLength x ≤ k ↔ x.toNat < 2 ^ k := by
  by_cases hx : x = 0
  · subst hx
    exact iff_of_true (Nat.zero_le k) (Nat.two_pow_pos k)
  · obtain ⟨i, hi⟩ := exists_highestSetBit hx
    rw [bitLength_of_highestSetBit hi]
    refine ⟨fun h => hi.lt_two_pow.trans_le (Nat.pow_le_pow_right Nat.two_pos h), fun h => ?_⟩
    exact (Nat.pow_lt_pow_iff_right Nat.one_lt_two).mp (hi.two_pow_le.trans_lt h)

theorem bitLength_pos {x : Uint128} (hx : x ≠ 0) : 0 < bitLength x := by
  obtain ⟨i, hi⟩ := exists_highestSetBit hx
  rw [bitLength_of_highestSetBit hi]
  exact Nat.succ_pos i

variable {j : Nat} (hj : 0 < j)
include hj

/-- The number of digits in base `2 ^ j` is the bit length divided by `j`, rounded up, and 1 for zero (R111). -/
theorem numeral_two_pow_length :
    (numeral (2 ^ j) x.toNat).length = max 1 ((bitLength x + (j - 1)) / j) := by
  have hb : 1 < 2 ^ j := Nat.one_lt_two_pow hj.ne'
  have hpos := numeral_length_pos x.toNat hb
  refine eq_of_forall_ge_iff fun k => ?_
  cases k with
  | zero => omega
  | succ k =>
    rw [numeral_length_le_iff (k := k + 1) _ hb k.succ_pos, ← Nat.pow_mul, ← bitLength_le_iff, max_le_iff,
      Nat.div_le_iff_le_mul_add_pred hj, Nat.add_le_add_iff_right]
    exact (and_iff_right k.succ_pos).symm

theorem numeral_two_pow_length_of_ne_zero (hx : x ≠ 0) :
    (numeral (2 ^ j) x.toNat).length = (bitLength x + (j - 1)) / j := by
  have hpos := bitLength_pos hx
  rw [numeral_two_pow_length x hj, max_eq_right]
  exact Nat.div_pos (by omega) hj

/-- A digit in base `2 ^ j` is a group of `j` bits, cut from bit 0 (R114, R115, R117). -/
theorem numeral_two_pow {n : Nat} (hn : n = max 1 ((bitLength x + (j - 1)) / j)) :
    numeral (2 ^ j) x.toNat = (List.range n).map fun k => (x.extractLsb' (j * (n - 1 - k)) j).toNat := by
  rw [← numeral_two_pow_length x hj] at hn
  refine List.ext_getElem (by simp [hn]) fun k hk _ => ?_
  rw [List.getElem_map, List.getElem_range, hn, numeral_getElem _ (Nat.one_lt_two_pow hj.ne'),
    BitVec.extractLsb'_toNat, Nat.shiftRight_eq_div_pow, Nat.pow_mul]

end

theorem numeral_two_length {x : Uint128} (hx : x ≠ 0) : (numeral 2 x.toNat).length = bitLength x :=
  (numeral_two_pow_length_of_ne_zero x (j := 1) Nat.one_pos hx).trans (Nat.div_one _)

/-! ## The text of a number (R112), and the seam between two parts of it (R120, R122) -/

/-- The characters of the canonical numeral, the letters from `a` on. -/
def numeralText (b : Nat) (a : Byte) (v : Nat) : List Byte := (numeral b v).map (digitChar a)

theorem padZeros_numeralText (w b : Nat) (a : Byte) (v : Nat) : padZeros w (numeralText b a v) =
    (List.replicate (w - (numeral b v).length) 0 ++ numeral b v).map (digitChar a) := by
  rw [padZeros, numeralText, List.map_append, List.map_replicate, List.length_map]
  rfl

section
variable {b : Nat} (hb : 1 < b)
include hb

theorem fmtText_eq_numeralText (a : Byte) (x : Uint128) : fmtText b a x = numeralText b a x.toNat := by
  rw [fmtText, canonicalDigits_eq_numeral hb, numeralText]

/-- The text of a number cut above its `w` lowest digits: the lower part is padded where the upper one is not zero. -/
theorem numeralText_div_mod {w : Nat} (hw : 0 < w) (a : Byte) (v : Nat) : numeralText b a v =
    if v / b ^ w = 0 then numeralText b a (v % b ^ w)
    else numeralText b a (v / b ^ w) ++ padZeros w (numeralText b a (v % b ^ w)) := by
  have hpos : 0 < b ^ w := Nat.pow_pos (Nat.zero_lt_of_lt hb)
  split
  next hq => rw [Nat.mod_eq_of_lt (Nat.lt_of_div_eq_zero hpos hq)]
  next hq =>
    rw [padZeros_numeralText, numeralText, numeralText, ← List.map_append,
      ← numeral_append hb hq hw (Nat.mod_lt v hpos), Nat.div_add_mod']

/-- Where the seam of the words falls between two digits, the text may be produced per word (R120). -/
theorem fmtText_words {w : Nat} (hw : 0 < w) (hseam : b ^ w = 2 ^ 64) (a : Byte) (x : Uint128) :
    fmtText b a x = if hi x = 0 then fmtText b a (join 0 (lo x))
      else fmtText b a (join 0 (hi x)) ++ padZeros w (fmtText b a (join 0 (lo x))) := by
  have hword (v : Word) : (join 0 v).toNat = v.toNat := by simp [toNat_join]
  have hlo := (lo x).isLt
  have hdiv : x.toNat / b ^ w = (hi x).toNat := by rw [hseam, toNat_words]; omega
  have hmod : x.toNat % b ^ w = (lo x).toNat := by rw [hseam, toNat_words]; omega
  simp only [fmtText_eq_numeralText hb, hword, ← BitVec.toNat_inj (x := hi x)]
  rw [numeralText_div_mod hb hw, hdiv, hmod]
  rfl

/-- The text of a number cut into three groups of `w` digits, the highest of any length (R122). -/
theorem numeralText_groups {w : Nat} (hw : 0 < w) (a : Byte) (v : Nat) : numeralText b a v =
    if v / b ^ (w + w) ≠ 0 then numeralText b a (v / b ^ (w + w)) ++
      padZeros w (numeralText b a (v / b ^ w % b ^ w)) ++ padZeros w (numeralText b a (v % b ^ w))
    else if v / b ^ w % b ^ w ≠ 0 then
      numeralText b a (v / b ^ w % b ^ w) ++ padZeros w (numeralText b a (v % b ^ w))
    else numeralText b a (v % b ^ w) := by
  have hpos : 0 < b ^ w := Nat.pow_pos (Nat.zero_lt_of_lt hb)
  rw [numeralText_div_mod hb hw a v, numeralText_div_mod hb hw a (v / b ^ w), Nat.pow_add, ← Nat.div_div_eq_div_mul]
  by_cases h2 : v / b ^ w / b ^ w = 0
  · rw [if_pos h2, if_neg (not_not.mpr h2), Nat.mod_eq_of_lt (Nat.lt_of_div_eq_zero hpos h2), ite_not]
  · have h1 : v / b ^ w ≠ 0 := fun h => h2 (by rw [h, Nat.zero_div])
    rw [if_neg h1, if_neg h2, if_pos h2]

end

/-! ## The response that carries a text (R43, R123) -/

section
variable {cs : List Byte}

theorem driveText_rs_getElem {k : Nat} (hk : k < 128) : (driveText cs).rs[k] = cs.getD k 0 := textPort_getElem cs k hk

variable (h : cs.length ≤ 128)
include h

theorem driveText_rslen_toNat : (driveText cs).rslen.toNat = cs.length :=
  Nat.mod_eq_of_lt (h.trans_lt (by decide))

/-- RS holds the characters in order, and then 0x00. -/
theorem driveText_rs_toList : (driveText cs).rs.toList = cs ++ List.replicate (128 - cs.length) 0 := by
  refine List.ext_getElem (by simp; omega) fun k hk _ => ?_
  rw [Vector.length_toList] at hk
  rw [Vector.getElem_toList, driveText_rs_getElem hk, List.getElem_append]
  split
  next hlt => exact List.getD_eq_getElem _ _ hlt
  next hge => rw [List.getElem_replicate, List.getD_eq_default _ _ (Nat.le_of_not_lt hge)]

theorem driveText_text : (driveText cs).text = cs := by
  rw [Response.text, driveText_rs_toList h, driveText_rslen_toNat h, List.take_left]

theorem carriesText_driveText : CarriesText (driveText cs) (cs.map BitVec.toNat) := by
  refine ⟨rfl, ?_, fun k hk => ?_⟩
  · rw [driveText_rslen_toNat h, List.length_map]
  · rw [driveText_rs_getElem hk]
    exact (List.getD_map cs 0 BitVec.toNat).symm

end

/-! ## The six formatting operations (R110, R112) -/

/-- The code of the first letter digit (R112). -/
def letterA (upper : Bool) : Byte := if upper then upperA else lowerA

section
variable {i : Instr} {b : Nat} {u : Bool}

theorem result_of_mem_formats (hf : (i, b, u) ∈ formats) (q : Request) :
    result q i = driveText (fmtText b (letterA u) q.x) := by
  have hall : ∀ f ∈ formats, result q f.1 = driveText (fmtText f.2.1 (letterA f.2.2) q.x) := by
    simp only [formats, List.forall_mem_cons]
    exact ⟨rfl, rfl, rfl, rfl, rfl, rfl, nofun⟩
  exact hall _ hf

theorem one_lt_of_mem_formats (hf : (i, b, u) ∈ formats) : 1 < b := by
  have hall : ∀ f ∈ formats, 1 < f.2.1 := by decide
  exact hall _ hf

theorem le_sixteen_of_mem_formats (hf : (i, b, u) ∈ formats) : b ≤ 16 := by
  have hall : ∀ f ∈ formats, f.2.1 ≤ 16 := by decide
  exact hall _ hf

theorem fmtBin_mem_formats : (.fmtBin, 2, false) ∈ formats := by decide
theorem fmtOct_mem_formats : (.fmtOct, 8, false) ∈ formats := by decide
theorem fmtDec_mem_formats : (.fmtDec, 10, false) ∈ formats := by decide
theorem fmtHexl_mem_formats : (.fmtHexl, 16, false) ∈ formats := by decide
theorem fmtHexu_mem_formats : (.fmtHexu, 16, true) ∈ formats := by decide
theorem fmtStr_mem_formats : (.fmtStr, 10, false) ∈ formats := by decide

variable (hf : (i, b, u) ∈ formats)
include hf

theorem exec_format (s : State) :
    exec i s = .next { s with rsp := some (driveText (fmtText b (letterA u) s.req.x)) } := by
  rw [exec_eq_answerWith_result, result_of_mem_formats hf]
  rfl

variable (x y ci : Uint128)

theorem ask_format : ask i x y ci = driveText (fmtText b (letterA u) x) := by
  rw [ask_eq_result, result_of_mem_formats hf]
  rfl

theorem ask_format_text : (ask i x y ci).text = fmtText b (letterA u) x := by
  rw [ask_format hf, driveText_text (fmtText_length_le _ _ _)]

theorem ask_format_rslen_toNat : (ask i x y ci).rslen.toNat = (numeral b x.toNat).length := by
  rw [ask_format hf, driveText_rslen_toNat (fmtText_length_le _ _ _),
    fmtText_eq_numeralText (one_lt_of_mem_formats hf), numeralText, List.length_map]

/-- The first character is that of the first digit. -/
theorem ask_format_rs_zero : (ask i x y ci).rs[0] =
    digitChar (letterA u) ((numeral b x.toNat)[0]'(numeral_length_pos _ (one_lt_of_mem_formats hf))) := by
  have hpos := numeral_length_pos x.toNat (one_lt_of_mem_formats hf)
  simp only [ask_format hf, fmtText_eq_numeralText (one_lt_of_mem_formats hf)]
  rw [driveText_rs_getElem (by decide), numeralText, List.getD_eq_getElem _ _ (by rwa [List.length_map]),
    List.getElem_map]

/-- Each digit of the numeral has a character (R112). -/
theorem lt_sixteen_of_mem_numeral {v d : Nat} (hd : d ∈ numeral b v) : d < 16 :=
  (lt_of_mem_numeral v (one_lt_of_mem_formats hf) hd).trans_le (le_sixteen_of_mem_formats hf)

theorem carriesText_numeral :
    CarriesText (driveText (fmtText b (letterA u) x)) ((numeral b x.toNat).map (charCode u)) := by
  have hcodes : (numeral b x.toNat).map (charCode u) = (fmtText b (letterA u) x).map BitVec.toNat := by
    rw [fmtText_eq_numeralText (one_lt_of_mem_formats hf), numeralText, List.map_map]
    exact List.map_congr_left fun d hd => (digitChar_toNat u d (lt_sixteen_of_mem_numeral hf hd)).symm
  rw [hcodes]
  exact carriesText_driveText (fmtText_length_le _ _ _)

end

/-- The text in a base `2 ^ j` is read off the bits in groups of `j` (R114, R115, R117). -/
theorem carriesText_two_pow {i : Instr} {j : Nat} {u : Bool} (hf : (i, 2 ^ j, u) ∈ formats) (hj : 0 < j)
    (x : Uint128) {n : Nat} (hn : n = max 1 (((ask .len x 0 0).rn.toNat + (j - 1)) / j)) :
    CarriesText (driveText (fmtText (2 ^ j) (letterA u) x))
      ((List.range n).map fun k => charCode u (x.extractLsb' (j * (n - 1 - k)) j).toNat) := by
  rw [ask_len_rn_toNat] at hn
  have h := carriesText_numeral hf x
  rw [numeral_two_pow x hj hn, List.map_map] at h
  exact h

/-- A 43-digit octal text begins with 1, 2 or 3, as 128 = 3 · 42 + 2 (R111). -/
theorem ask_fmtOct_rs_zero {x : Uint128} (h : (numeral 8 x.toNat).length = 43) :
    (ask .fmtOct x 0 0).rs[0] ∈ [0x31#8, 0x32#8, 0x33#8] := by
  have hx := x.isLt
  obtain ⟨hle, _⟩ := (numeral_length_eq_succ_iff _ (by decide) (by decide)).mp h
  rw [ask_format_rs_zero fmtOct_mem_formats, numeral_getElem _ (by decide), h]
  have hall : ∀ d < 4, 0 < d → digitChar (letterA false) d ∈ [0x31#8, 0x32#8, 0x33#8] := by decide
  exact hall _ (by omega) (by omega)

theorem toNat_getLsbD {w : Nat} (x : BitVec w) (i : Nat) : (x.getLsbD i).toNat = x.toNat / 2 ^ i % 2 :=
  Nat.toNat_testBit _ _

theorem charCode_of_lt_ten (u : Bool) {d : Nat} (hd : d < 10) : charCode u d = 0x30 + d := if_pos hd

/-- The character of a binary digit (R114). -/
theorem charCode_extractLsb'_one (x : Uint128) (k : Nat) :
    charCode false (x.extractLsb' (1 * k) 1).toNat = 0x30 + (x.getLsbD k).toNat := by
  have hbit : (x.extractLsb' (1 * k) 1).toNat = (x.getLsbD k).toNat := by
    rw [BitVec.extractLsb'_toNat, toNat_getLsbD, Nat.shiftRight_eq_div_pow, Nat.one_mul]
  rw [hbit, charCode_of_lt_ten false ((Bool.toNat_lt _).trans (by decide))]

/-- The character of an octal digit, cut from the value widened by a zero bit (R115). -/
theorem charCode_extractLsb'_three (x : Uint128) (k : Nat) :
    charCode false (x.extractLsb' k 3).toNat = 0x30 + ((x.zeroExtend 129).extractLsb' k 3).toNat := by
  have hwide : (x.zeroExtend 129).extractLsb' k 3 = x.extractLsb' k 3 := by
    apply BitVec.eq_of_toNat_eq
    rw [BitVec.extractLsb'_toNat, BitVec.extractLsb'_toNat, BitVec.toNat_setWidth_of_le (by decide)]
  rw [hwide, charCode_of_lt_ten false ((BitVec.isLt _).trans (by decide))]

theorem carriesText_decimal (x : Uint128) : CarriesText (driveText (fmtText 10 lowerA x))
    (if x = 0 then [0x30] else (Nat.digits 10 x.toNat).reverse.map (0x30 + ·)) := by
  have h := carriesText_numeral fmtDec_mem_formats x
  have hcodes : (numeral 10 x.toNat).map (charCode false) = (numeral 10 x.toNat).map (0x30 + ·) :=
    List.map_congr_left fun d hd => charCode_of_lt_ten false (lt_of_mem_numeral _ (by decide) hd)
  rw [hcodes] at h
  split
  next hx =>
    subst hx
    exact h
  next hx =>
    rw [numeral_of_ne_zero (BitVec.toNat_ne_iff_ne.mpr hx)] at h
    exact h

/-! ## The letters of the two hexadecimal forms (R112, R118) -/

/-- A character with the code of a letter `a` to `f` lowered by 0x20 (R124). -/
def upperCase (c : Byte) : Byte := if 0x61 ≤ c.toNat ∧ c.toNat ≤ 0x66 then c - 0x20#8 else c

theorem toNat_upperCase (c : Byte) :
    (upperCase c).toNat = if 0x61 ≤ c.toNat ∧ c.toNat ≤ 0x66 then c.toNat - 0x20 else c.toNat := by
  unfold upperCase
  split
  · rw [BitVec.toNat_sub_of_le (by rw [BitVec.le_def]; simp; omega)]
    rfl
  · rfl

theorem digitChar_upperA {d : Nat} (hd : d < 16) : digitChar upperA d = upperCase (digitChar lowerA d) := by
  revert d
  decide

theorem fmtText_upperA (x : Uint128) : fmtText 16 upperA x = (fmtText 16 lowerA x).map upperCase := by
  rw [fmtText, fmtText, List.map_map]
  exact List.map_congr_left fun d hd => digitChar_upperA (canonicalDigits_lt 16 (by decide) x d hd)

/-! ## Division by words (R122) -/

/-- The schoolbook division of a two-digit number in base `B` (R122). -/
theorem schoolbook_division {m : Nat} (hm : 0 < m) (B h : Nat) {l : Nat} (hl : l < B) :
    (h * B + l) / m = h / m * B + (h % m * B + l) / m ∧ (h * B + l) % m = (h % m * B + l) % m ∧
      (h % m * B + l) / m < B := by
  have hsplit : h * B + l = m * (h / m * B) + (h % m * B + l) := by
    conv_lhs => rw [← Nat.div_add_mod h m]
    ring
  refine ⟨?_, ?_, ?_⟩
  · rw [hsplit, Nat.mul_add_div hm]
  · rw [hsplit, Nat.mul_add_mod]
  · rw [Nat.div_lt_iff_lt_mul hm]
    calc h % m * B + l < (h % m + 1) * B := by rw [Nat.succ_mul]; exact Nat.add_lt_add_left hl _
      _ ≤ B * m := by rw [Nat.mul_comm B]; exact Nat.mul_le_mul_right B (Nat.mod_lt h hm)

/-! ## Reading a text from RS alone, and back to the value (R123, R124) -/

theorem digitChar_ne_zero (u : Bool) {d : Nat} (hd : d < 16) : digitChar (letterA u) d ≠ 0 := by
  revert d u
  decide

theorem digitChar_zero (u : Bool) : digitChar (letterA u) 0 = 0x30#8 := by rfl

theorem codeDigit_digitChar (u : Bool) {d : Nat} (hd : d < 16) : codeDigit (digitChar (letterA u) d).toNat = d := by
  revert d u
  decide

/-- The order of the characters is that of the digits (R124). -/
theorem digitChar_lt_iff (u : Bool) : ∀ d < 16, ∀ e < 16,
    ((digitChar (letterA u) d).toNat < (digitChar (letterA u) e).toNat ↔ d < e) := by
  revert u
  decide

theorem digitChar_inj (u : Bool) {d e : Nat} (hd : d < 16) (he : e < 16) :
    digitChar (letterA u) d = digitChar (letterA u) e ↔ d = e :=
  ⟨fun h => by rw [← codeDigit_digitChar u hd, h, codeDigit_digitChar u he], fun h => h ▸ rfl⟩

theorem takeWhile_driveText {cs : List Byte} (hlen : cs.length ≤ 128) (hne : ∀ c ∈ cs, c ≠ 0x00#8) :
    (driveText cs).rs.toList.takeWhile (· != 0x00#8) = cs := by
  rw [driveText_rs_toList hlen, List.takeWhile_append_of_pos fun c hc => bne_iff_ne.mpr (hne c hc),
    List.takeWhile_replicate]
  exact List.append_nil cs

/-- Reading a numeral is Horner's rule. -/
theorem readNumeral_map_digitChar (b : Nat) (u : Bool) {ds : List Nat} (hds : ∀ d ∈ ds, d < 16) :
    readNumeral b (ds.map (digitChar (letterA u))) = Nat.ofDigits b ds.reverse := by
  rw [readNumeral, List.foldl_map, Nat.ofDigits_eq_foldr, List.foldr_reverse]
  refine List.foldl_ext _ _ _ fun a d hd => ?_
  rw [codeDigit_digitChar u (hds d hd), Nat.add_comm, Nat.mul_comm]
  rfl

/-- Two-digit numbers in base `p` are ordered by their upper digits, and on a tie by their lower ones. -/
theorem add_mul_lt_iff {p k l d e : Nat} (hk : k < p) (hl : l < p) :
    k + p * d < l + p * e ↔ d < e ∨ d = e ∧ k < l := by
  obtain h | h | h := lt_trichotomy d e
  · have := Nat.mul_le_mul_left p h
    rw [Nat.mul_succ] at this
    omega
  · subst h
    omega
  · have := Nat.mul_le_mul_left p h
    rw [Nat.mul_succ] at this
    omega

/-- Between texts of one length the order of the characters is that of the numbers (R124). -/
theorem lex_map_digitChar_iff {b : Nat} (hb : 1 < b) (hb16 : b ≤ 16) (u : Bool) {ds es : List Nat}
    (hlen : ds.length = es.length) (hds : ∀ d ∈ ds, d < b) (hes : ∀ e ∈ es, e < b) :
    List.Lex (fun p q : Byte => p.toNat < q.toNat) (ds.map (digitChar (letterA u))) (es.map (digitChar (letterA u))) ↔
      Nat.ofDigits b ds.reverse < Nat.ofDigits b es.reverse := by
  induction ds generalizing es with
  | nil =>
    rw [List.eq_nil_of_length_eq_zero hlen.symm]
    simp
  | cons d ds ih =>
    obtain - | ⟨e, es⟩ := es
    · cases hlen
    · obtain ⟨hd, hds⟩ := List.forall_mem_cons.mp hds
      obtain ⟨he, hes⟩ := List.forall_mem_cons.mp hes
      have hlen' : ds.length = es.length := Nat.succ.inj hlen
      have hlt := Nat.ofDigits_lt_base_pow_length hb fun d hd => hds d (List.mem_reverse.mp hd)
      have hlt' := Nat.ofDigits_lt_base_pow_length hb fun e he => hes e (List.mem_reverse.mp he)
      rw [List.length_reverse] at hlt hlt'
      have hd16 := hd.trans_le hb16
      have he16 := he.trans_le hb16
      rw [List.map_cons, List.map_cons, List.cons_lex_cons_iff, digitChar_lt_iff u d hd16 e he16,
        digitChar_inj u hd16 he16, ih hlen' hds hes, Nat.ofDigits_reverse_cons, Nat.ofDigits_reverse_cons, hlen']
      exact (add_mul_lt_iff (hlen' ▸ hlt) hlt').symm

/-- The order of the numbers is that of the texts, the shorter first (R124). -/
theorem lt_iff_numeralText {b : Nat} (hb : 1 < b) (hb16 : b ≤ 16) (u : Bool) (v w : Nat) : v < w ↔
    (numeralText b (letterA u) v).length < (numeralText b (letterA u) w).length ∨
      (numeralText b (letterA u) v).length = (numeralText b (letterA u) w).length ∧
        List.Lex (fun p q : Byte => p.toNat < q.toNat) (numeralText b (letterA u) v) (numeralText b (letterA u) w) := by
  have hshort {v w : Nat} (h : (numeral b v).length < (numeral b w).length) : v < w :=
    (lt_pow_numeral_length v hb).trans_le ((lt_numeral_length_iff w hb (numeral_length_pos v hb)).mp h)
  simp only [numeralText, List.length_map]
  obtain h | h | h := lt_trichotomy (numeral b v).length (numeral b w).length
  · exact iff_of_true (hshort h) (.inl h)
  · rw [lex_map_digitChar_iff hb hb16 u h (fun _ => lt_of_mem_numeral v hb) (fun _ => lt_of_mem_numeral w hb),
      ofDigits_reverse_numeral, ofDigits_reverse_numeral, or_iff_right h.not_lt, and_iff_right h]
  · exact iff_of_false (hshort h).not_gt (by omega)

section
variable {i : Instr} {b : Nat} {u : Bool} (hf : (i, b, u) ∈ formats)
include hf

theorem readNumeral_fmtText (x : Uint128) : readNumeral b (fmtText b (letterA u) x) = x.toNat := by
  rw [fmtText_eq_numeralText (one_lt_of_mem_formats hf), numeralText,
    readNumeral_map_digitChar b u fun d => lt_sixteen_of_mem_numeral hf, ofDigits_reverse_numeral]

/-- A text that begins with the character `0` is that of the value zero (R124). -/
theorem rslen_eq_one_of_rs_zero (x y ci : Uint128) (h : (ask i x y ci).rs[0] = 0x30#8) :
    (ask i x y ci).rslen = 1 := by
  have hb := one_lt_of_mem_formats hf
  rw [ask_format_rs_zero hf] at h
  have hdigit := (digitChar_inj u (lt_sixteen_of_mem_numeral hf (List.getElem_mem _)) (by decide)).mp
    (h.trans (digitChar_zero u).symm)
  apply BitVec.eq_of_toNat_eq
  rw [ask_format_rslen_toNat hf, eq_zero_of_numeral_head _ hb hdigit]
  rfl

theorem ne_zero_of_mem_fmtText (x : Uint128) : ∀ c ∈ fmtText b (letterA u) x, c ≠ 0x00#8 := by
  rw [fmtText_eq_numeralText (one_lt_of_mem_formats hf), numeralText, List.forall_mem_map]
  exact fun d hd => digitChar_ne_zero u (lt_sixteen_of_mem_numeral hf hd)

theorem driveText_rs_eq_zero_iff (x : Uint128) {k : Nat} (hk : k < 128) :
    (driveText (fmtText b (letterA u) x)).rs[k] = 0x00#8 ↔
      (driveText (fmtText b (letterA u) x)).rslen.toNat ≤ k := by
  rw [driveText_rs_getElem hk, driveText_rslen_toNat (fmtText_length_le _ _ _)]
  by_cases hlt : k < (fmtText b (letterA u) x).length
  · rw [List.getD_eq_getElem _ _ hlt]
    exact iff_of_false (ne_zero_of_mem_fmtText hf x _ (List.getElem_mem hlt)) hlt.not_ge
  · rw [List.getD_eq_default _ _ (Nat.le_of_not_lt hlt)]
    exact iff_of_true rfl (Nat.le_of_not_lt hlt)

end

/-! ## The statements -/

/-- Settles O37: the answer carries the characters of the canonical numeral, which R110 fixes. -/
theorem formatsAreCanonical : Obligations.FormatsAreCanonical := by
  intro ⟨i, b, u⟩ hf s
  have hb := one_lt_of_mem_formats hf
  exact ⟨numeral b s.req.x.toNat, _, exec_format hf s, canonical_numeral _ hb, fun _ => eq_numeral_of_canonical hb,
    carriesText_numeral hf _⟩

/-- Settles O38: a numeral has at most `k` digits where the value lies below the `k`-th power of the base. -/
theorem textLengths : Obligations.TextLengths := by
  unfold Obligations.TextLengths
  intro n len
  simp only [n, len, ask_format_rslen_toNat fmtBin_mem_formats, ask_format_rslen_toNat fmtOct_mem_formats,
    ask_format_rslen_toNat fmtDec_mem_formats, ask_format_rslen_toNat fmtHexl_mem_formats,
    ask_format_rslen_toNat fmtHexu_mem_formats, ask_format_rslen_toNat fmtStr_mem_formats, ask_len_rn_toNat]
  refine ⟨fun ⟨i, b, u⟩ hf => ?_, fun x hx => ?_, fun x => ?_, ?_, ?_, ?_, ?_, fun x => ask_fmtOct_rs_zero⟩
  · rw [ask_format_rslen_toNat hf]
    rfl
  · have hhex := numeral_two_pow_length_of_ne_zero x (j := 4) (by decide) hx
    exact ⟨numeral_two_length hx, numeral_two_pow_length_of_ne_zero x (j := 3) (by decide) hx, hhex, hhex,
      pow_numeral_length_sub_one_le (by decide) (BitVec.toNat_ne_iff_ne.mpr hx), lt_pow_numeral_length _ (by decide),
      trivial⟩
  · have hle {b k : Nat} (hb : 1 < b) (hk : 0 < k) (hbk : 2 ^ 128 ≤ b ^ k) : (numeral b x.toNat).length ≤ k :=
      (numeral_length_le_iff _ hb hk).mpr (x.isLt.trans_le hbk)
    have hdec : (numeral 10 x.toNat).length ≤ 39 := hle (by decide) (by decide) (by decide)
    have hhex : (numeral 16 x.toNat).length ≤ 32 := hle (by decide) (by decide) (by decide)
    refine ⟨hle (by decide) (by decide) (by decide), hle (by decide) (by decide) (by decide), hdec, hhex, hhex, hdec,
      fun ⟨i, b, u⟩ hf => ?_⟩
    rw [ask_format_rslen_toNat hf]
    exact numeral_length_pos _ (one_lt_of_mem_formats hf)
  all_goals
    rw [numeral_length_eq_succ_iff _ (by decide) (by decide), toNat_maxConst]
    decide

/-- Settles O39: in base 2 a digit is one bit. -/
theorem fmtBinReadsTheBits : Obligations.FmtBinReadsTheBits := by
  intro s
  refine ⟨_, decode_encode .fmtBin, exec_format fmtBin_mem_formats s, ?_⟩
  have h := carriesText_two_pow (j := 1) fmtBin_mem_formats Nat.one_pos s.req.x (by rw [Nat.div_one])
  simp only [charCode_extractLsb'_one] at h
  exact h

/-- Settles O40: in base 8 a digit is three bits, of which the value widened by a zero bit has 43 groups. -/
theorem fmtOctCutsTheWholeValue : Obligations.FmtOctCutsTheWholeValue := by
  intro s
  refine ⟨_, decode_encode .fmtOct, exec_format fmtOct_mem_formats s, ?_⟩
  have h := carriesText_two_pow (j := 3) fmtOct_mem_formats (by decide) s.req.x rfl
  simp only [charCode_extractLsb'_three] at h
  exact h

/-- Settles O41: the numeral in base 10 of the whole value. -/
theorem fmtDecConvertsTheWholeValue : Obligations.FmtDecConvertsTheWholeValue := fun s =>
  ⟨_, decode_encode .fmtDec, exec_format fmtDec_mem_formats s, carriesText_decimal s.req.x⟩

/-- Settles O42: in base 16 a digit is four bits. -/
theorem fmtHexlCutsNibbles : Obligations.FmtHexlCutsNibbles := fun s =>
  ⟨_, decode_encode .fmtHexl, exec_format fmtHexl_mem_formats s,
    carriesText_two_pow (j := 4) fmtHexl_mem_formats (by decide) s.req.x rfl⟩

/-- Settles O43: the digits are those of `FMT.HEXL`, and so is each character up to its case. -/
theorem fmtHexuDiffersInLettersOnly : Obligations.FmtHexuDiffersInLettersOnly := by
  intro s
  refine ⟨_, decode_encode .fmtHexu, exec_format fmtHexu_mem_formats s,
    carriesText_two_pow (j := 4) fmtHexu_mem_formats (by decide) s.req.x rfl, ?_⟩
  have hupper : fmtText 16 (letterA true) s.req.x = (fmtText 16 (letterA false) s.req.x).map upperCase :=
    fmtText_upperA s.req.x
  rw [ask_format fmtHexl_mem_formats, hupper]
  refine ⟨?_, fun k hk => ?_⟩
  · rw [driveText, List.length_map]
    rfl
  · rw [driveText_rs_getElem hk, driveText_rs_getElem hk, ← toNat_upperCase]
    exact congrArg BitVec.toNat (List.getD_map _ 0 upperCase)

/-- Settles O44: both are the numeral in base 10. -/
theorem fmtStrIsFmtDec : Obligations.FmtStrIsFmtDec := fun s =>
  ⟨_, decode_encode .fmtStr, exec_format fmtStr_mem_formats s, exec_format fmtDec_mem_formats s,
    carriesText_decimal s.req.x⟩

/-- Settles O45: the seam is at a power of the base, 2^64 = 16^16. -/
theorem binaryAndHexPerWord : Obligations.BinaryAndHexPerWord := by
  unfold Obligations.BinaryAndHexPerWord
  simp only [List.forall_mem_cons, ask_format_text fmtBin_mem_formats, ask_format_text fmtHexl_mem_formats,
    ask_format_text fmtHexu_mem_formats]
  exact ⟨fmtText_words (w := 64) (by decide) (by decide) rfl _, fmtText_words (w := 16) (by decide) (by decide) rfl _,
    fmtText_words (w := 16) (by decide) (by decide) rfl _, nofun⟩

/-- Settles O46: the text of (H=1, L=0) begins with 2, that of its high word with 1. -/
theorem octalNotPerWord : Obligations.OctalNotPerWord := by
  unfold Obligations.OctalNotPerWord
  simp only [ask_format_text fmtOct_mem_formats]
  have hseam : fmtText 8 (letterA false) (join 1 0) = 0x32#8 :: List.replicate 21 0x30#8 := by decide
  have hhigh : fmtText 8 (letterA false) (join 0 (hi (join 1 0))) = [0x31#8] := by decide
  refine ⟨hseam, fun n h => ?_, fun x => ?_⟩
  · rw [hseam, hhigh] at h
    exact absurd (List.head_eq_of_cons_eq h) (by decide)
  · have hlo := (lo x).isLt
    rw [toNat_getLsbD, toNat_getLsbD, toNat_getLsbD, toNat_words x]
    omega

/-- Settles O47: a divisor splits the number in base 2^64, and the powers of 10^19 split the decimal numeral. -/
theorem decimalByWordsAndByGroups : Obligations.DecimalByWordsAndByGroups := by
  unfold Obligations.DecimalByWordsAndByGroups
  refine ⟨fun x m hm _ => ?_, fun x => ?_⟩
  · rw [toNat_words x]
    exact schoolbook_division hm (2 ^ 64) _ (lo x).isLt
  · have hx := x.isLt
    have htext {v : Nat} (hv : v ≤ x.toNat) :
        fmtText 10 (letterA false) (BitVec.ofNat 128 v) = numeralText 10 (letterA false) v := by
      rw [fmtText_eq_numeralText (by decide), BitVec.toNat_ofNat, Nat.mod_eq_of_lt (hv.trans_lt hx)]
    have hmid : x.toNat / 10 ^ 19 % 10 ^ 19 ≤ x.toNat := (Nat.mod_le _ _).trans (Nat.div_le_self _ _)
    simp only [ask_format_text fmtDec_mem_formats, htext (Nat.mod_le _ _), htext (Nat.div_le_self _ _), htext hmid]
    refine ⟨by omega, ?_⟩
    rw [fmtText_eq_numeralText (by decide)]
    exact numeralText_groups (w := 19) (by decide) (by decide) _ _

/-- Settles O48: no character is 0x00, so the first 0x00 is the one after the text. -/
theorem textCanBeReadFromRsAlone : Obligations.TextCanBeReadFromRsAlone := by
  intro ⟨i, b, u⟩ hf s
  have hlen := fmtText_length_le b (letterA u) s.req.x
  refine ⟨_, exec_format hf s, ?_, ?_, fun k hk => driveText_rs_eq_zero_iff hf _ hk, ?_, ?_⟩
  · rw [driveText_rslen_toNat hlen]
    exact fmtText_length_pos b (one_lt_of_mem_formats hf) _ _
  · rwa [driveText_rslen_toNat hlen]
  · rw [takeWhile_driveText hlen (ne_zero_of_mem_fmtText hf _), driveText_text hlen]
  · rw [driveText_text hlen, driveText_rslen_toNat hlen]

/-- Settles O49: a text is read back by Horner's rule, and its order is that of the numbers. -/
theorem textReadsBackToTheValue : Obligations.TextReadsBackToTheValue := by
  have hread : ∀ f ∈ formats, ∀ x : Uint128, readNumeral f.2.1 (ask f.1 x 0 0).text = x.toNat := by
    intro ⟨i, b, u⟩ hf x
    rw [ask_format_text hf]
    exact readNumeral_fmtText hf x
  refine ⟨hread, fun f hf x y h => ?_, fun ⟨i, b, u⟩ hf x => rslen_eq_one_of_rs_zero hf x 0 0, ?_, fun x => ?_,
    fun x hx => ?_⟩
  · exact BitVec.eq_of_toNat_eq (by rw [← hread f hf, h, hread f hf])
  · intro ⟨i, b, u⟩ hf x y
    have hb := one_lt_of_mem_formats hf
    simp only [ask_format_text hf, ask_cmp_rf, cmpFlags_eq_lt_iff, fmtText_eq_numeralText hb]
    exact lt_iff_numeralText hb (le_sixteen_of_mem_formats hf) u x.toNat y.toNat
  · rw [ask_format_text fmtHexu_mem_formats, ask_format_text fmtHexl_mem_formats]
    exact fmtText_upperA x
  · apply BitVec.eq_of_toNat_eq
    rw [ask_format_rslen_toNat fmtBin_mem_formats, ask_len_rn_toNat, numeral_two_length hx]

end Sys2Proof.Machine
end

section
/-! PROOFS. spec/60_exceptions.md: nothing traps or refuses to answer (R130), the carry-in violation (R132), and the
values of ST (R133). -/

namespace Sys2Proof.Machine

/-! ## Every step answers (R130) -/

/-- A reset, a wait and the answer to a request due each end in a next state. -/
theorem exists_step_eq_next (s : State) : ∃ t, step s = .next t := by
  obtain ⟨_, hreset⟩ | ⟨_, _, hwait⟩ | ⟨_, p, rest, _, _, hanswer⟩ := step_cases s
  · exact ⟨_, hreset⟩
  · exact ⟨_, hwait⟩
  · exact ⟨_, hanswer.trans (answerIsAFunctionOfTheRequest _)⟩

/-! ## The status of a response (R131 to R133) -/

theorem encode_injective : Function.Injective encode := fun i j h =>
  Except.ok.inj (((decode_encode i).symm.trans (congrArg decode h)).trans (decode_encode j))

theorem encode_eq_add128_iff {i : Instr} : encode i = 0x30#8 ↔ i = .add128 :=
  encode_injective.eq_iff (b := .add128)

section
variable (q : Request)

/-- Every operation but `ADD128` sets no status (R53). -/
theorem result_st_of_ne_add128 {i : Instr} (hi : i ≠ .add128) : (result q i).st = 0 :=
  (result_drives q i).st_eq_zero (mt rc_mem_results.mp hi)

/-- A carry-in of 0 or 1 keeps the contract of `ADD128`, and no other operation has one (R101). -/
theorem result_st_of_ci_le_one (i : Instr) (hci : q.ci.toNat ≤ 1) : (result q i).st = 0 := by
  by_cases hi : i = .add128
  · rw [hi]
    exact (addStatus_eq_zero_iff q.ci).mpr hci
  · exact result_st_of_ne_add128 q hi

/-- Where the status of a response comes from: a reserved opcode, the carry in of `ADD128`, or no condition at all. -/
theorem respond_st_cases :
    ((∀ i, q.op ≠ encode i) ∧ (respond q).st = 0b01#2) ∨
    (q.op = 0x30#8 ∧ (respond q).st = addStatus q.ci) ∨
    (q.op ≠ 0x30#8 ∧ (respond q).st = 0b00#2) := by
  by_cases hop : ∃ i, q.op = encode i
  · obtain ⟨i, hi⟩ := hop
    rw [respond_of_encode hi, hi, Ne, encode_eq_add128_iff]
    by_cases hadd : i = .add128
    · subst hadd
      exact .inr (.inl ⟨rfl, rfl⟩)
    · exact .inr (.inr ⟨hadd, result_st_of_ne_add128 q hadd⟩)
  · rw [not_exists] at hop
    rw [respond_of_reserved hop]
    exact .inl ⟨hop, rfl⟩

theorem addStatus_civ_iff (ci : Uint128) : (addStatus ci).getLsbD 1 = true ↔ ci.toNat / 2 ≠ 0 := by
  rw [addStatus_eq_ite]
  split_ifs with h <;> simp [h]

/-- ST.CIV is the report of `ADD128` with a bit of CI above bit 0, and of nothing else (R132). -/
theorem respond_civ_iff : (respond q).civ = true ↔ q.op = 0x30#8 ∧ q.ci.toNat / 2 ≠ 0 := by
  rw [Response.civ]
  obtain ⟨hop, hst⟩ | ⟨hop, hst⟩ | ⟨hop, hst⟩ := respond_st_cases q
  · rw [hst]
    exact iff_of_false (by decide) fun h => hop .add128 h.1
  · rw [hst, addStatus_civ_iff, and_iff_right hop]
  · rw [hst]
    exact iff_of_false (by decide) fun h => hop h.1

end

/-- Bit 0 of a carry in is kept where the other bits are cleared. -/
theorem getLsbD_zero_mod_two (ci : Uint128) :
    ci.getLsbD 0 = (BitVec.ofNat 128 (ci.toNat % 2)).getLsbD 0 := by
  simp [BitVec.getLsbD]

/-! ## The statements -/

/-- Settles O8: each way a step goes ends in a next state, and each operation answers its result. -/
theorem nothingFaultsOrRefuses : Obligations.NothingFaultsOrRefuses :=
  ⟨exists_step_eq_next, fun i s => ⟨result s.req i, exec_eq_answerWith_result i s,
    result_st_of_ne_add128 s.req, result_st_of_ci_le_one s.req i⟩⟩

/-- Settles O10: only `ADD128` computes CIV, and its adder is given bit 0 of CI alone (R101). -/
theorem carryInViolationIsReported : Obligations.CarryInViolationIsReported := by
  refine ⟨respond_civ_iff, fun ⟨op, x, y, ci⟩ hciv => ?_⟩
  obtain ⟨rfl, _⟩ := (respond_civ_iff _).mp hciv
  exact (onlyBitZeroOfCarryInCounts x y ci _).1 (getLsbD_zero_mod_two ci)

/-- Settles O11: the three sources of a status each give one of the three values, and one request of each kind shows
that the values occur. -/
theorem statusTakesThreeValues : Obligations.StatusTakesThreeValues := by
  refine ⟨fun q => ?_, fun q hop => ?_, fun v hv => ?_⟩
  · obtain ⟨_, hst⟩ | ⟨_, hst⟩ | ⟨_, hst⟩ := respond_st_cases q
    · exact .inr (.inl hst)
    · rw [hst, addStatus_eq_ite]
      split_ifs
      · exact .inl rfl
      · exact .inr (.inr rfl)
    · exact .inl hst
  · rw [respond_of_reserved hop]
    rfl
  · have hvalues : ∀ v : BitVec 2, v ≠ 0b11#2 → v = 0b00#2 ∨ v = 0b01#2 ∨ v = 0b10#2 := by decide
    obtain rfl | rfl | rfl := hvalues v hv
    · exact ⟨Request.of .zero 0 0 0, by decide⟩
    · exact ⟨⟨0x04, 0, 0, 0⟩, by decide⟩
    · exact ⟨Request.of .add128 0 0 2, by decide⟩

end Sys2Proof.Machine
end

section
/-! PROOFS. spec/70_reset_and_hazards.md: one cycle without reset, the combinational implementation (R152), reset (R150),
the order of responses (R156), and the bounds on the wait for a response and for REQ_READY (R153, R157). -/

namespace Sys2Proof.Machine

/-! ## One cycle without reset (R152) -/

/-- The two ways a cycle without reset goes from `s`: no request is due, or the oldest in flight is answered. -/
inductive Cycle (s : State) : State → Prop
  | wait (hdue : ∀ p rest, s.acceptEdge.pending = p :: rest → p.left ≠ 0) : Cycle s s.acceptEdge.wait
  | answer (p : InFlight) (rest : List InFlight) (hpending : s.acceptEdge.pending = p :: rest) (hdue : p.left = 0) :
      Cycle s ((s.acceptEdge.retire p rest).answerWith (respond p.req))

theorem exists_cycle {s : State} (hrst : s.input.rst = false) : ∃ u, step s = .next u ∧ Cycle s u := by
  obtain ⟨hreset, _⟩ | ⟨_, hdue, hwait⟩ | ⟨_, p, rest, hpending, hdue, hanswer⟩ := step_cases s
  · rw [hrst] at hreset
    cases hreset
  · exact ⟨_, hwait, .wait hdue⟩
  · exact ⟨_, hanswer.trans (answerIsAFunctionOfTheRequest _), .answer p rest hpending hdue⟩

theorem step_of_rst {s : State} (hrst : s.input.rst = true) : step s = .next s.resetEdge := if_pos hrst

/-- Under RST the block is not ready (R150). -/
theorem reqReady_of_rst {s : State} (hrst : s.input.rst = true) : s.reqReady = false := by
  simp [State.reqReady, hrst]

section
variable {s u : State} (h : Cycle s u)
include h

theorem Cycle.pins_eq : u.pins = s.pins.tail := by cases h <;> simp
theorem Cycle.willing_eq : u.willing = s.willing.tail := by cases h <;> simp
theorem Cycle.lat_eq : u.lat = s.lat := by cases h <;> simp
theorem Cycle.depthPred_eq : u.depthPred = s.depthPred := by cases h <;> simp
theorem Cycle.depth_eq : u.depth = s.depth := congrArg (· + 1) h.depthPred_eq
theorem Cycle.latOf_eq (q : Request) : u.latOf q = s.latOf q := State.latOf_congr s u q h.lat_eq

end

/-! ## The requests in flight after an acceptance (R156) -/

section
variable (s : State)

/-- The request that the coming edge accepts, if any. -/
def State.acceptedNow : List Request := if s.accepts then [s.input.req] else []

/-- An accepted request joins as the youngest. -/
theorem acceptEdge_pending_req :
    s.acceptEdge.pending.map InFlight.req = s.pending.map InFlight.req ++ s.acceptedNow := by
  rw [State.acceptEdge_pending, State.acceptedNow]
  split_ifs <;> simp

theorem exists_acceptEdge_pending : ∃ new, s.acceptEdge.pending = s.pending ++ new := by
  rw [State.acceptEdge_pending]
  split_ifs
  · exact ⟨_, rfl⟩
  · exact ⟨[], (List.append_nil _).symm⟩

end

section
variable {s : State}

theorem acceptEdge_pending_of_accepts (h : s.accepts = true) :
    s.acceptEdge.pending = s.pending ++ [⟨s.input.req, s.latOf s.input.req⟩] := by
  rw [State.acceptEdge_pending, if_pos h]

theorem acceptEdge_pending_of_not_ready (h : s.reqReady = false) : s.acceptEdge.pending = s.pending := by
  simp [State.acceptEdge_pending, State.accepts, h]

/-- An acceptance keeps the bound DEPTH. -/
theorem acceptEdge_pending_length_le (h : s.pending.length ≤ s.depth) :
    s.acceptEdge.pending.length ≤ s.depth := by
  rw [State.acceptEdge_pending]
  split_ifs with haccepts
  · simpa using pending_lt_of_accepts s haccepts
  · exact h

end

/-- What a cycle accepts and presents: the requests in flight before and the one accepted are, in order, the one
answered, if any, and the requests in flight after. -/
theorem Cycle.conserves {s u : State} (h : Cycle s u) : ∃ answered : List Request,
    s.pending.map InFlight.req ++ s.acceptedNow = answered ++ u.pending.map InFlight.req ∧
    u.rsp.toList = answered.map respond := by
  rw [← acceptEdge_pending_req]
  cases h with
  | wait => exact ⟨[], by simp, rfl⟩
  | answer p rest hpending => exact ⟨[p.req], by simp [hpending], rfl⟩

theorem Cycle.pending_length_le {s u : State} (h : Cycle s u) (hdepth : s.pending.length ≤ s.depth) :
    u.pending.length ≤ u.depth := by
  rw [h.depth_eq]
  have haccept := acceptEdge_pending_length_le hdepth
  cases h with
  | wait => simpa using haccept
  | answer p rest hpending =>
    rw [hpending] at haccept
    simpa using (Nat.lt_of_succ_le haccept).le

/-! ## Runs, one step at a time -/

section
variable {s u t : State} {n : Nat}

theorem stepsTo_succ (hstep : step s = .next u) (h : stepsTo n u t) : stepsTo (n + 1) s t := ⟨u, hstep, h⟩

theorem acceptedIn_succ (hstep : step s = .next u) : acceptedIn (n + 1) s = s.acceptedNow ++ acceptedIn n u := by
  rw [acceptedIn, hstep]
  rfl

theorem presentedIn_succ (hstep : step s = .next u) : presentedIn (n + 1) s = u.rsp.toList ++ presentedIn n u := by
  rw [presentedIn, hstep]

/-- The inputs of the next edge are the first sample listed, or idle. -/
theorem input_rst_of_noReset (h : noReset (n + 1) s) : s.input.rst = false := by
  rw [State.input]
  cases hpins : s.pins with
  | nil => rfl
  | cons e es => exact h e (by simp [hpins])

theorem Cycle.noReset (hcycle : Cycle s u) (h : noReset (n + 1) s) : noReset n u := by
  intro e he
  rw [hcycle.pins_eq] at he
  refine h e ?_
  cases hpins : s.pins with
  | nil => simp [hpins] at he
  | cons e' es => exact List.mem_cons_of_mem _ (by simpa [hpins] using he)

theorem noReset_mono {m : Nat} (hmn : m ≤ n) (h : noReset n s) : noReset m s :=
  fun e he => h e (List.take_subset_take_left _ hmn he)

theorem noReset_of_forall (h : ∀ e ∈ s.pins, e.rst = false) : noReset n s :=
  fun e he => h e (List.mem_of_mem_take he)

end

/-! ## The combinational implementation (R152) -/

/-- Settles O51: the one request in flight is the one accepted, due at once. -/
theorem combinationalImplementationConforms : Obligations.CombinationalImplementationConforms := by
  intro s hwilling hlat hpending
  have hready : s.reqReady = !s.input.rst := by simp [State.reqReady, State.isWilling, State.depth, hwilling, hpending]
  refine ⟨hready, ?_⟩
  cases hrst : s.input.rst with
  | true => exact ⟨_, step_of_rst hrst, by simp [State.rspValid, hwilling]⟩
  | false =>
    have haccepts : s.accepts = s.input.reqValid := by simp [State.accepts, hready, hrst]
    have hqueue : s.acceptEdge.pending = if s.input.reqValid then [⟨s.input.req, 0⟩] else [] := by
      rw [State.acceptEdge_pending, haccepts, hlat, hpending, List.nil_append]
    obtain ⟨u, hstep, hcycle⟩ := exists_cycle hrst
    have hanswer : u.rspValid = s.input.reqValid ∧ (∀ r, u.rsp = some r → r = respond s.input.req) ∧ u.pending = [] := by
      cases hvalid : s.input.reqValid with
      | false =>
        rw [hvalid] at hqueue
        cases hcycle with
        | wait => exact ⟨rfl, nofun, by simp [hqueue]⟩
        | answer p rest hqueue' => cases hqueue.symm.trans hqueue'
      | true =>
        rw [hvalid] at hqueue
        cases hcycle with
        | wait hdue => exact absurd rfl (hdue _ _ hqueue)
        | answer p rest hqueue' =>
          cases hqueue.symm.trans hqueue'
          exact ⟨rfl, fun r hr => (Option.some.inj hr).symm, rfl⟩
    obtain ⟨hvalid, hrsp, hempty⟩ := hanswer
    exact ⟨u, hstep, by simp [hvalid], hrsp, hcycle.pins_eq, by simp [hcycle.willing_eq, hwilling], hcycle.lat_eq,
      hempty, hcycle.depthPred_eq⟩

/-! ## The order of responses (R150, R156) -/

/-- The requests in flight at the start of a run and those accepted in it are, in order, those answered and those in
flight at its end. -/
theorem run_conserves (n : Nat) (s : State) (h : noReset n s) : ∃ t answered, stepsTo n s t ∧
    s.pending.map InFlight.req ++ acceptedIn n s = answered ++ t.pending.map InFlight.req ∧
    presentedIn n s = answered.map respond ∧ t.depth = s.depth ∧
    (s.pending.length ≤ s.depth → t.pending.length ≤ t.depth) := by
  induction n generalizing s with
  | zero => exact ⟨s, [], rfl, by simp [acceptedIn], rfl, rfl, id⟩
  | succ n ih =>
    obtain ⟨u, hstep, hcycle⟩ := exists_cycle (input_rst_of_noReset h)
    obtain ⟨now, hqueue, hrsp⟩ := hcycle.conserves
    obtain ⟨t, later, hsteps, hqueues, hpresented, hdepth, hlength⟩ := ih u (hcycle.noReset h)
    refine ⟨t, now ++ later, stepsTo_succ hstep hsteps, ?_, ?_, hdepth.trans hcycle.depth_eq,
      fun hs => hlength (hcycle.pending_length_le hs)⟩
    · rw [acceptedIn_succ hstep, ← List.append_assoc, hqueue, List.append_assoc, hqueues, List.append_assoc]
    · rw [presentedIn_succ hstep, hrsp, hpresented, List.map_append]

/-- Settles O54: the requests answered are the first of those in flight and accepted, and the others stay in flight. -/
theorem responsesComeInAcceptanceOrder : Obligations.ResponsesComeInAcceptanceOrder := by
  intro n s h
  obtain ⟨t, answered, hsteps, hqueue, hpresented, hdepth, hlength⟩ := run_conserves n s h
  have hcount : (presentedIn n s).length = answered.length := by rw [hpresented, List.length_map]
  refine ⟨t, hsteps, ?_, ?_, fun hs => hdepth ▸ hlength hs⟩
  · rw [hcount, hqueue, List.take_left, hpresented]
  · rw [hcount, hqueue, List.drop_left]

/-- Settles O53: after the reset edge nothing is in flight, so that only requests accepted later are answered. -/
theorem resetDiscardsWhatIsInFlight : Obligations.ResetDiscardsWhatIsInFlight := by
  intro s hrst
  refine ⟨reqReady_of_rst hrst, s.resetEdge, step_of_rst hrst, rfl, rfl, fun n h => ?_⟩
  obtain ⟨_, _, hpresented, _⟩ := responsesComeInAcceptanceOrder n s.resetEdge h
  exact hpresented

/-! ## The wait for a response (R153, R157) -/

/-- A request in flight when one more cycle of its latency has passed (R157). -/
def InFlight.aged (p : InFlight) : InFlight := { p with left := p.left - 1 }

theorem age_eq_map (q : List InFlight) : age q = q.map InFlight.aged := rfl

theorem age_append (q r : List InFlight) : age (q ++ r) = age q ++ age r := List.map_append

/-- What a cycle does to the queue: all of it waits, or the oldest request is answered and the others wait. -/
theorem Cycle.queue_cases {s u : State} (h : Cycle s u) {p : InFlight} {rest : List InFlight}
    (hqueue : s.acceptEdge.pending = p :: rest) :
    (p.left ≠ 0 ∧ u.rsp = none ∧ ∃ new, u.acceptEdge.pending = age (p :: rest) ++ new) ∨
    (p.left = 0 ∧ u.req = p.req ∧ u.rsp = some (respond p.req) ∧ ∃ new, u.acceptEdge.pending = age rest ++ new) := by
  have hnew := exists_acceptEdge_pending u
  cases h with
  | wait hdue => exact .inl ⟨hdue p rest hqueue, rfl, hqueue ▸ hnew⟩
  | answer p' rest' hqueue' hdue =>
    cases hqueue.symm.trans hqueue'
    exact .inr ⟨hdue, rfl, rfl, hnew⟩

/-- The oldest request is answered by the step after its latency. -/
theorem oldest_answered {s : State} {behind : List InFlight} {p : InFlight} (hreset : noReset (p.left + 1) s)
    (hqueue : s.acceptEdge.pending = p :: behind) :
    ∃ t, stepsTo (p.left + 1) s t ∧ t.req = p.req ∧ t.rsp = some (respond p.req) := by
  induction hleft : p.left generalizing s behind p with
  | zero =>
    obtain ⟨u, hstep, hcycle⟩ := exists_cycle (input_rst_of_noReset hreset)
    obtain ⟨hne, _⟩ | ⟨_, hreq, hrsp, _⟩ := hcycle.queue_cases hqueue
    · exact absurd hleft hne
    · exact ⟨u, stepsTo_succ hstep rfl, hreq, hrsp⟩
  | succ n ih =>
    obtain ⟨u, hstep, hcycle⟩ := exists_cycle (input_rst_of_noReset hreset)
    have hreset' := hcycle.noReset hreset
    have haged : p.aged.left = n := by rw [InFlight.aged, hleft, Nat.add_sub_cancel]
    obtain ⟨_, _, new, hnew⟩ | ⟨hzero, _⟩ := hcycle.queue_cases hqueue
    · obtain ⟨t, hsteps, hanswer⟩ := ih (p := p.aged) (by rwa [haged, ← hleft]) hnew haged
      exact ⟨t, stepsTo_succ hstep hsteps, hanswer⟩
    · exact absurd (hleft.symm.trans hzero) (Nat.succ_ne_zero n)

/-- What a cycle does to a request `p` that is not the oldest: all of those ahead of it stay there, or the oldest of
them is answered. -/
theorem Cycle.ahead_cases {s u : State} (h : Cycle s u) {a p : InFlight} {ahead behind : List InFlight}
    (hqueue : s.acceptEdge.pending = a :: ahead ++ p :: behind) :
    ∃ ahead' behind', u.acceptEdge.pending = age ahead' ++ p.aged :: behind' ∧
      (ahead' = a :: ahead ∧ a.left ≠ 0 ∧ u.rsp = none ∨ ahead' = ahead ∧ u.rsp = some (respond a.req)) := by
  obtain ⟨hne, hrsp, new, hnew⟩ | ⟨_, _, hrsp, new, hnew⟩ := h.queue_cases hqueue
  · exact ⟨a :: ahead, age behind ++ new, by simp [hnew, age_append, InFlight.aged], .inl ⟨rfl, hne, hrsp⟩⟩
  · exact ⟨ahead, age behind ++ new, by simp [hnew, age_append, InFlight.aged], .inr ⟨rfl, hrsp⟩⟩

/-- A request is answered at the latest after the longest latency left of it and of those ahead of it, and one more
cycle for each of these. -/
theorem answered_within (n : Nat) {s : State} {ahead behind : List InFlight} {p : InFlight}
    (hreset : noReset (n + 1) s) (hqueue : s.acceptEdge.pending = ahead ++ p :: behind)
    (hleft : ∀ q ∈ ahead ++ [p], q.left + ahead.length ≤ n) :
    ∃ m t, m ≤ n ∧ stepsTo (m + 1) s t ∧ t.req = p.req ∧ t.rsp = some (respond p.req) := by
  induction n using Nat.strong_induction_on generalizing s ahead behind p with
  | h n ih =>
    cases ahead with
    | nil =>
      have hle : p.left ≤ n := by simpa using hleft
      obtain ⟨t, ht⟩ := oldest_answered (noReset_mono (Nat.succ_le_succ hle) hreset) hqueue
      exact ⟨p.left, t, hle, ht⟩
    | cons a ahead =>
      have ha : a.left + (ahead.length + 1) ≤ n := hleft a (by simp)
      obtain ⟨n, rfl⟩ : ∃ n', n = n' + 1 := ⟨n - 1, by omega⟩
      obtain ⟨u, hstep, hcycle⟩ := exists_cycle (input_rst_of_noReset hreset)
      obtain ⟨ahead', behind', hqueue', hcases⟩ := hcycle.ahead_cases hqueue
      have hfewer : ahead'.length ≤ n ∧ ∀ q ∈ ahead' ++ [p], q.left + ahead'.length ≤ n + 1 := by
        obtain ⟨rfl, hne, _⟩ | ⟨rfl, _⟩ := hcases
        · exact ⟨by rw [List.length_cons]; omega, hleft⟩
        · exact ⟨by omega, fun q hq => (Nat.le_succ _).trans (hleft q (List.mem_cons_of_mem a hq))⟩
      have hleft' : ∀ q ∈ age ahead' ++ [p.aged], q.left + (age ahead').length ≤ n := by
        intro q' hq'
        obtain ⟨q, hq, rfl⟩ : ∃ q ∈ ahead' ++ [p], q.aged = q' := by simpa [age_eq_map, eq_comm] using hq'
        have := hfewer.2 q hq
        simp only [age_length, InFlight.aged]
        omega
      obtain ⟨m, t, hm, hsteps, hanswer⟩ := ih n n.lt_succ_self (hcycle.noReset hreset) hqueue' hleft'
      exact ⟨m + 1, t, Nat.succ_le_succ hm, stepsTo_succ hstep hsteps, hanswer⟩

/-- In the first cycles, as many as a request has of its latency left, only requests ahead of it are answered. -/
theorem presentedIn_length_le (n : Nat) {s : State} {ahead behind : List InFlight} {p : InFlight}
    (hreset : noReset n s) (hqueue : s.acceptEdge.pending = ahead ++ p :: behind) (hleft : n ≤ p.left) :
    (presentedIn n s).length ≤ ahead.length := by
  induction n generalizing s ahead behind p with
  | zero => exact Nat.zero_le _
  | succ n ih =>
    obtain ⟨u, hstep, hcycle⟩ := exists_cycle (input_rst_of_noReset hreset)
    have hleft' : n ≤ p.aged.left := Nat.le_sub_of_add_le hleft
    rw [presentedIn_succ hstep]
    cases ahead with
    | nil =>
      obtain ⟨_, hrsp, new, hnew⟩ | ⟨hzero, _⟩ := hcycle.queue_cases hqueue
      · simpa [hrsp] using ih (ahead := []) (hcycle.noReset hreset) hnew hleft'
      · omega
    | cons a ahead =>
      obtain ⟨ahead', behind', hqueue', hcases⟩ := hcycle.ahead_cases hqueue
      have hle := ih (hcycle.noReset hreset) hqueue' hleft'
      rw [age_length] at hle
      obtain ⟨rfl, _, hrsp⟩ | ⟨rfl, hrsp⟩ := hcases
      · simpa [hrsp] using hle
      · simpa [hrsp, Nat.add_comm 1] using hle

/-! ## The return of REQ_READY (R153) -/

/-- No reset is listed, at most DEPTH requests are in flight, and none has more than `m` cycles left. -/
structure State.WithinBounds (m : Nat) (s : State) : Prop where
  rst : ∀ e ∈ s.pins, e.rst = false
  depth : s.pending.length ≤ s.depth
  left : ∀ p ∈ s.pending, p.left ≤ m

theorem Cycle.mem_pending {s u : State} (h : Cycle s u) {p : InFlight} (hp : p ∈ u.pending) :
    ∃ q ∈ s.acceptEdge.pending, q.aged = p := by
  have hmem : p ∈ age s.acceptEdge.pending := by
    cases h with
    | wait => exact hp
    | answer q rest hqueue => exact hqueue ▸ List.mem_cons_of_mem _ hp
  simpa [age_eq_map, eq_comm] using hmem

theorem Cycle.withinBounds {s u : State} {m k : Nat} (h : Cycle s u) (hs : s.WithinBounds m)
    (hleft : ∀ q ∈ s.acceptEdge.pending, q.left ≤ k + 1) : u.WithinBounds k where
  rst e he := hs.rst e (List.mem_of_mem_tail (h.pins_eq ▸ he))
  depth := h.pending_length_le hs.depth
  left p hp := by
    obtain ⟨q, hq, rfl⟩ := h.mem_pending hp
    exact Nat.sub_le_of_le_add (hleft q hq)

/-- A willing block without reset is not ready only where DEPTH requests are in flight. -/
theorem reqReady_iff_of_willing {s : State} (hrst : s.input.rst = false) (hwilling : s.willing = []) :
    s.reqReady = true ↔ s.pending.length < s.depth := by
  simp [State.reqReady, State.isWilling, hrst, hwilling]

/-- The cycle that answers a request makes room for another. -/
theorem Cycle.pending_length_lt {s u : State} (h : Cycle s u) {r : Response} (hrsp : u.rsp = some r) :
    u.pending.length < s.acceptEdge.pending.length := by
  cases h with
  | wait => cases hrsp
  | answer p rest hqueue => simp [hqueue]

theorem State.WithinBounds.input_rst {m : Nat} {s : State} (hs : s.WithinBounds m) : s.input.rst = false :=
  input_rst_of_noReset (n := 0) (noReset_of_forall hs.rst)

/-- Where a willing block is not ready, it accepts nothing: either its oldest request leaves and it is ready, or all
requests in flight wait. -/
theorem step_of_full {m : Nat} {s : State} (hs : s.WithinBounds m) (hwilling : s.willing = [])
    (hready : s.reqReady = false) : ∃ u, step s = .next u ∧ u.willing = [] ∧
      (u.reqReady = true ∨ ∃ k, m = k + 1 ∧ u.WithinBounds k) := by
  obtain ⟨u, hstep, hcycle⟩ := exists_cycle hs.input_rst
  have hwilling' : u.willing = [] := by rw [hcycle.willing_eq, hwilling, List.tail_nil]
  have hqueue := acceptEdge_pending_of_not_ready hready
  have hfull : s.depth ≤ s.pending.length :=
    Nat.le_of_not_lt fun hlt => by simp [(reqReady_iff_of_willing hs.input_rst hwilling).mpr hlt] at hready
  obtain ⟨p, rest, hpending⟩ : ∃ p rest, s.pending = p :: rest :=
    List.exists_cons_of_length_pos ((Nat.succ_pos _).trans_le hfull)
  refine ⟨u, hstep, hwilling', ?_⟩
  obtain ⟨hne, _⟩ | ⟨_, _, hrsp, _⟩ := hcycle.queue_cases (hqueue.trans hpending)
  · have hp : p.left ≤ m := hs.left p (hpending ▸ List.mem_cons_self)
    obtain ⟨k, rfl⟩ : ∃ k, m = k + 1 := ⟨m - 1, by omega⟩
    exact .inr ⟨k, rfl, hcycle.withinBounds hs (hqueue ▸ hs.left)⟩
  · have hu : u.WithinBounds m :=
      hcycle.withinBounds hs (hqueue ▸ fun q hq => (hs.left q hq).trans (Nat.le_succ m))
    refine .inl ((reqReady_iff_of_willing hu.input_rst hwilling').mpr ?_)
    calc u.pending.length < s.acceptEdge.pending.length := hcycle.pending_length_lt hrsp
      _ ≤ s.depth := acceptEdge_pending_length_le hs.depth
      _ = u.depth := hcycle.depth_eq.symm

/-- A willing block is ready once its oldest request has been answered. -/
theorem ready_within_of_willing (m : Nat) {s : State} (hs : s.WithinBounds m) (hwilling : s.willing = []) :
    ∃ n t, n ≤ m + 1 ∧ stepsTo n s t ∧ t.reqReady = true := by
  induction m using Nat.strong_induction_on generalizing s with
  | h m ih =>
    cases hready : s.reqReady with
    | true => exact ⟨0, s, Nat.zero_le _, rfl, hready⟩
    | false =>
      obtain ⟨u, hstep, hwilling', hready' | ⟨k, rfl, hu⟩⟩ := step_of_full hs hwilling hready
      · exact ⟨1, u, Nat.le_add_left 1 m, stepsTo_succ hstep rfl, hready'⟩
      · obtain ⟨n, t, hn, hsteps, hready'⟩ := ih k k.lt_succ_self hu hwilling'
        exact ⟨n + 1, t, Nat.succ_le_succ hn, stepsTo_succ hstep hsteps, hready'⟩

/-- The block is ready at the latest when the listed willingness has run out and the oldest request is answered. -/
theorem ready_within {m : Nat} (w : List Bool) {s : State} (hs : s.WithinBounds m) (hlat : ∀ q, s.latOf q ≤ m)
    (hwilling : s.willing = w) : ∃ n t, n ≤ w.length + m + 1 ∧ stepsTo n s t ∧ t.reqReady = true := by
  induction w generalizing s with
  | nil => simpa using ready_within_of_willing m hs hwilling
  | cons b w ih =>
    obtain ⟨u, hstep, hcycle⟩ := exists_cycle hs.input_rst
    have hleft : ∀ q ∈ s.acceptEdge.pending, q.left ≤ m := by
      rw [State.acceptEdge_pending]
      split_ifs
      · simpa [or_imp, forall_and] using ⟨hs.left, hlat s.input.req⟩
      · exact hs.left
    have hu := hcycle.withinBounds hs fun q hq => (hleft q hq).trans (Nat.le_succ m)
    obtain ⟨n, t, hn, hsteps, hready⟩ := ih hu (fun q => hcycle.latOf_eq q ▸ hlat q)
      (by rw [hcycle.willing_eq, hwilling, List.tail_cons])
    exact ⟨n + 1, t, by rw [List.length_cons]; omega, stepsTo_succ hstep hsteps, hready⟩

/-! ## LAT (R157) -/

/-- Every latency of the table counts for the longest wait. -/
theorem latOf_le_longestWait (s : State) (q : Request) : s.latOf q ≤ s.longestWait := by
  have hmem : s.latOf q ∈ s.lat.base :: s.lat.entries.map Prod.snd := by
    rw [State.latOf, latencyOf]
    split
    next e he => exact List.mem_cons_of_mem _ (List.mem_map_of_mem (List.mem_of_find?_eq_some he))
    next => exact List.mem_cons_self
  exact List.le_max_of_le' 0 (List.mem_append_right _ hmem) le_rfl

theorem left_le_longestWait {s : State} {p : InFlight} (hp : p ∈ s.pending) : p.left ≤ s.longestWait :=
  List.le_max_of_le' 0 (List.mem_append_left _ (List.mem_map_of_mem hp)) le_rfl

theorem readsX_iff {f : Format} : f.readsX = true ↔ f ∈ [Format.unary, .binary, .ternary] := by cases f <;> decide

theorem readsY_iff {f : Format} : f.readsY = true ↔ f ∈ [Format.binary, .ternary] := by cases f <;> decide

theorem readsCI_iff {f : Format} : f.readsCI = true ↔ f = .ternary := by cases f <;> decide

/-- Two requests with one opcode that agree on the ports its format reads are one request as the block reads them. -/
theorem asRead_congr {q q' : Request} (hop : q.op = q'.op) (h : ∀ i, decode q.op = .ok i →
    (i.format ∈ [Format.unary, .binary, .ternary] → q.x = q'.x) ∧
    (i.format ∈ [Format.binary, .ternary] → q.y = q'.y) ∧
    (i.format = Format.ternary → q.ci = q'.ci)) : q.asRead = q'.asRead := by
  unfold Request.asRead
  rw [← hop]
  cases hdecode : decode q.op with
  | error => rfl
  | ok i =>
    obtain ⟨hx, hy, hci⟩ := h i hdecode
    have hx' : (if i.format.readsX then q.x else 0) = if i.format.readsX then q'.x else 0 :=
      ite_congr rfl (fun hr => hx (readsX_iff.mp hr)) fun _ => rfl
    have hy' : (if i.format.readsY then q.y else 0) = if i.format.readsY then q'.y else 0 :=
      ite_congr rfl (fun hr => hy (readsY_iff.mp hr)) fun _ => rfl
    have hci' : (if i.format.readsCI then q.ci else 0) = if i.format.readsCI then q'.ci else 0 :=
      ite_congr rfl (fun hr => hci (readsCI_iff.mp hr)) fun _ => rfl
    simp only [hx', hy', hci']

/-- Settles O55: the bounds on a queue, for the queue that the coming edge leaves; and the table of latencies is read by
what the block reads of a request. -/
theorem everyAcceptedRequestIsAnswered : Obligations.EveryAcceptedRequestIsAnswered := by
  refine ⟨fun s k hk hrst => ?_, fun s hrst hdepth => ?_, fun s haccepts hreset => ?_,
    fun s haccepts hempty hreset => ?_, fun s q q' hop h => latencyOf_congr _ _ _ (asRead_congr hop h)⟩
  · obtain ⟨new, hnew⟩ := exists_acceptEdge_pending s
    have hsplit : s.pending.take k ++ s.pending[k] :: s.pending.drop (k + 1) = s.pending := by simp
    have hqueue : s.acceptEdge.pending = s.pending.take k ++ s.pending[k] :: (s.pending.drop (k + 1) ++ new) := by
      rw [hnew, ← List.cons_append, ← List.append_assoc, hsplit]
    have hleft : ∀ q ∈ s.pending.take k ++ [s.pending[k]],
        q.left + (s.pending.take k).length ≤ (s.pending.map InFlight.left).foldr max 0 + k := by
      intro q hq
      have hmem : q ∈ s.pending := List.mem_of_mem_take (i := k + 1) (by simpa using hq)
      exact Nat.add_le_add (List.le_max_of_le' 0 (List.mem_map_of_mem hmem) le_rfl) (List.length_take_le _ _)
    obtain ⟨m, t, hm, hsteps, hanswer⟩ := answered_within _ (noReset_of_forall hrst) hqueue hleft
    exact ⟨m + 1, t, m.succ_pos, Nat.succ_le_succ hm, hsteps, hanswer⟩
  · exact ready_within s.willing ⟨hrst, hdepth, fun _ => left_le_longestWait⟩ (latOf_le_longestWait s) rfl
  · exact presentedIn_length_le _ hreset (acceptEdge_pending_of_accepts haccepts) le_rfl
  · have hqueue : s.acceptEdge.pending = [⟨s.input.req, s.latOf s.input.req⟩] := by
      rw [acceptEdge_pending_of_accepts haccepts, hempty, List.nil_append]
    exact oldest_answered (p := ⟨_, _⟩) hreset hqueue

end Sys2Proof.Machine
end

section
/-! PROOFS. spec/70_reset_and_hazards.md: the requester's transactions and programs (R158), by the line's names (R59) and
the reserved opcodes (R55, R56). -/

namespace Sys2Proof.Machine

/-! ## Temporaries (R59) -/

section
variable (ts : Temps) (v : Value)

theorem get_set_self (n : Nat) : (ts.set n v).get n = some v := by
  simp [Temps.set, Temps.get]

theorem get_set_of_ne {m n : Nat} (h : m ≠ n) : (ts.set n v).get m = ts.get m := by
  have hkeep : (ts.filter fun e => e.1 != n).find? (fun e => e.1 == m) = ts.find? fun e => e.1 == m := by
    rw [List.find?_filter]
    congr 1
    funext e
    by_cases he : e.1 = m <;> simp [he, h]
  simp [Temps.set, Temps.get, h.symm, hkeep]

end

/-- The temporaries after each of a list of names receives its value, in order. -/
def Temps.setAll (ts : Temps) (es : List (Nat × Value)) : Temps := es.foldl (fun u e => u.set e.1 e.2) ts

theorem get_setAll_of_not_mem {n : Nat} (es : List (Nat × Value)) (ts : Temps) (h : n ∉ es.map Prod.fst) :
    (ts.setAll es).get n = ts.get n := by
  induction es generalizing ts with
  | nil => rfl
  | cons e es ih =>
    rw [List.map_cons, List.mem_cons, not_or] at h
    exact (ih _ h.2).trans (get_set_of_ne ts e.2 h.1)

/-- Distinct names keep what they receive. -/
theorem get_setAll_of_mem {n : Nat} {v : Value} (es : List (Nat × Value)) (ts : Temps)
    (hnodup : (es.map Prod.fst).Nodup) (h : (n, v) ∈ es) : (ts.setAll es).get n = some v := by
  induction es generalizing ts with
  | nil => cases h
  | cons e es ih =>
    rw [List.map_cons, List.nodup_cons] at hnodup
    obtain rfl | h := List.mem_cons.mp h
    · exact (get_setAll_of_not_mem es _ hnodup.1).trans (get_set_self ts v n)
    · exact ih _ hnodup.2 h

/-! ## The results of a line (R59) -/

section
variable {ln : Line} (r : Response)

/-- The names of a line, each with the value of the response port at its place. -/
def lineReceived (ln : Line) (r : Response) : List (Nat × Value) := ln.results.zip (ln.instr.results.map r.result)

theorem lineReceive_eq_setAll (ts : Temps) : lineReceive ln r ts = ts.setAll (lineReceived ln r) := rfl

/-- A well-formed line names as many results as its operation drives. -/
theorem results_length_of_wf (h : ln.wf = true) : ln.results.length = ln.instr.results.length := by
  simp only [Line.wf, Line.resultsMatch, Bool.and_eq_true, beq_iff_eq] at h
  exact h.1.2

theorem received_names (h : ln.wf = true) : (lineReceived ln r).map Prod.fst = ln.results :=
  List.map_fst_zip (by rw [List.length_map, results_length_of_wf h])

theorem mem_received {k : Nat} (hk : k < ln.results.length) (hk' : k < ln.instr.results.length) :
    (ln.results[k], r.result ln.instr.results[k]) ∈ lineReceived ln r :=
  List.mem_iff_getElem.mpr ⟨k, by simp [lineReceived, hk, hk'], by simp [lineReceived]⟩

/-- Each of the distinct names of a line receives the response port that stands at its place. -/
theorem get_lineReceive_getElem (ts : Temps) (h : ln.wf = true) (hnodup : ln.results.Nodup) {k : Nat}
    (hk : k < ln.results.length) (hk' : k < ln.instr.results.length) :
    (lineReceive ln r ts).get ln.results[k] = some (r.result ln.instr.results[k]) := by
  rw [lineReceive_eq_setAll]
  exact get_setAll_of_mem _ ts (by rwa [received_names r h]) (mem_received r hk hk')

theorem get_lineReceive_of_not_mem (ts : Temps) (h : ln.wf = true) {n : Nat} (hn : n ∉ ln.results) :
    (lineReceive ln r ts).get n = ts.get n := by
  rw [lineReceive_eq_setAll]
  exact get_setAll_of_not_mem _ ts (by rwa [received_names r h])

theorem lineRequest_op {ts : Temps} {q : Request} (h : lineRequest ts ln = some q) : q.op = encode ln.instr := by
  unfold lineRequest at h
  split at h
  · cases h
    rfl
  · cases h

end

/-! ## Transactions with a reserved opcode (R55, R56) -/

theorem isReservedCode_iff {op : Byte} : isReservedCode op = true ↔ ∀ i, op ≠ encode i := by
  rw [← decode_eq_reserved_iff, reservedCodesAreTheListedRanges.1 op]
  have hlast : op.toNat ≤ 0xFF := Nat.le_of_lt_succ op.isLt
  simp [isReservedCode, reservedRanges, hlast]

section
variable {ts : Temps} {op : Byte} {x y ci : Operand}

theorem transactionRequest_reserved_op {q : Request} (h : transactionRequest ts (.reserved op x y ci) = some q) :
    q.op = op := by
  simp only [transactionRequest] at h
  split at h
  · cases h
    rfl
  · cases h

/-- A transaction with a reserved opcode that runs leaves the temporaries as they were, with ST = 01. -/
theorem runTransaction_reserved {u : Temps} {st : BitVec 2}
    (h : runTransaction ts (.reserved op x y ci) = some (u, st)) : u = ts ∧ st = 0b01#2 := by
  obtain ⟨hwf, q, hq, hu, hst⟩ := (runTransaction_eq_some _ _ _ _).mp h
  simp only [Transaction.wf, Bool.and_eq_true] at hwf
  obtain ⟨⟨⟨hop, _⟩, _⟩, _⟩ := hwf
  have hreserved : ∀ i, q.op ≠ encode i := transactionRequest_reserved_op hq ▸ isReservedCode_iff.mp hop
  rw [respond_of_reserved hreserved] at hst
  exact ⟨hu, hst⟩

end

/-! ## Programs (R158) -/

theorem runFrom_cons_of_rest {k : Nat} {ts u : Temps} {tr : Transaction} {p : List Transaction} {st : BitVec 2}
    {d : EndState} (htr : runTransaction ts tr = some (u, st)) (hd : runFrom (k + 1) u p = some d) :
    ∃ e, runFrom k ts (tr :: p) = some e ∧ e.temps = d.temps :=
  ⟨⟨d.temps, (if st = 0 then [] else [(k, st)]) ++ d.status⟩,
    (runFrom_cons_eq_some ..).mpr ⟨u, st, d, htr, hd, rfl, rfl⟩, rfl⟩

/-- The number of its first transaction has no effect on the temporaries that a program leaves. -/
theorem runFrom_temps {k : Nat} (k' : Nat) {ts : Temps} {p : List Transaction} {e : EndState}
    (h : runFrom k ts p = some e) : ∃ e', runFrom k' ts p = some e' ∧ e'.temps = e.temps := by
  induction p generalizing k k' ts e with
  | nil =>
    cases h
    exact ⟨_, rfl, rfl⟩
  | cons tr p ih =>
    obtain ⟨u, st, d, htr, hd, htemps, _⟩ := (runFrom_cons_eq_some ..).mp h
    obtain ⟨d', hd', htemps'⟩ := ih (k' + 1) hd
    obtain ⟨e', he', hrest⟩ := runFrom_cons_of_rest htr hd'
    exact ⟨e', he', hrest.trans (htemps'.trans htemps.symm)⟩

/-- A transaction with a reserved opcode is listed by its status under its number, and the temporaries are those of the
program without it. -/
theorem runFrom_append_reserved (p r : List Transaction) {k : Nat} {ts : Temps} {op : Byte} {x y ci : Operand}
    {e : EndState} (h : runFrom k ts (p ++ .reserved op x y ci :: r) = some e) :
    (k + p.length, 0b01#2) ∈ e.status ∧ ∃ e', runFrom k ts (p ++ r) = some e' ∧ e'.temps = e.temps := by
  induction p generalizing k ts e with
  | nil =>
    obtain ⟨u, st, d, htr, hd, htemps, hstatus⟩ := (runFrom_cons_eq_some ..).mp h
    obtain ⟨rfl, rfl⟩ := runTransaction_reserved htr
    exact ⟨by simp [hstatus], htemps ▸ runFrom_temps k hd⟩
  | cons tr p ih =>
    obtain ⟨u, st, d, htr, hd, htemps, hstatus⟩ := (runFrom_cons_eq_some ..).mp h
    obtain ⟨hmem, d', hd', htemps'⟩ := ih hd
    have hnumber : k + (tr :: p).length = k + 1 + p.length := by rw [List.length_cons]; omega
    obtain ⟨e', he', hrest⟩ := runFrom_cons_of_rest htr hd'
    refine ⟨?_, e', he', hrest.trans (htemps'.trans htemps.symm)⟩
    rw [hnumber, hstatus]
    exact List.mem_append_right _ hmem

/-! ## The statement -/

/-- Settles O60: the names of a line are set one after the other, each to the port at its place; and the report of a
reserved opcode carries its status alone. -/
theorem lineNamesReceiveTheResultPorts : Obligations.LineNamesReceiveTheResultPorts := by
  refine ⟨fun ts ln q hwf hq hnodup => ?_, fun ts op x y ci q hop hx hy hci hq => ?_, fun ts p r op x y ci e h => ?_⟩
  · refine ⟨lineReceive ln (respond q) ts, (runTransaction_eq_some ..).mpr ⟨hwf, q, hq, rfl, rfl⟩,
      fun k hk hk' => get_lineReceive_getElem _ ts hwf hnodup hk hk',
      fun n hn => get_lineReceive_of_not_mem _ ts hwf hn, decode_eq_ok_iff.mpr (lineRequest_op hq)⟩
  · have hqop := transactionRequest_reserved_op hq
    have hwf : (Transaction.reserved op x y ci).wf = true := by
      simp [Transaction.wf, isReservedCode_iff.mpr hop, hx, hy, hci]
    refine ⟨hqop, (runTransaction_eq_some ..).mpr ⟨hwf, q, hq, rfl, ?_⟩⟩
    rw [respond_of_reserved (hqop ▸ hop)]
    rfl
  · rw [Nat.add_comm]
    exact runFrom_append_reserved p r h

end Sys2Proof.Machine
end

section
/-! PROOFS. spec/30_encoding.md: the codes as table words (R50, R52), and the table written out bit by bit (R52). -/

namespace Sys2Proof.Machine

/-- A table word of eight bits is read as one operation code (R50, R58). -/
theorem decodeTableWord_eight_eq_some_iff {i : Instr} {w : Nat} :
    decodeTableWord 8 w = some i ↔ w < 2 ^ 8 ∧ decode (BitVec.ofNat 8 w) = .ok i := by
  have hbytes : decodeBytes (bytesOf (8 / 8) w) = decode (BitVec.ofNat 8 w) := rfl
  rw [decodeTableWord, hbytes]
  split_ifs with hw
  · rw [and_iff_right hw]
    cases decode (BitVec.ofNat 8 w) <;> simp [Except.toOption]
  · exact iff_of_false nofun fun h => hw h.1

/-- Settles O1: the decoder gives an operation for its own code alone, and a number that fits eight bits is that of its
word. -/
theorem tableWordDecodesExactlyItsEncoding : Obligations.TableWordDecodesExactlyItsEncoding := by
  intro i w
  rw [decodeTableWord_eight_eq_some_iff, decode_eq_ok_iff]
  constructor
  · rintro ⟨hw, hcode⟩
    rw [← hcode, BitVec.toNat_ofNat, Nat.mod_eq_of_lt hw]
  · rintro rfl
    exact ⟨(encode i).isLt, by rw [BitVec.ofNat_toNat, BitVec.setWidth_eq]⟩

/-- Settles O2: what the decoder gives is fixed by the code, and each word of the table is the code of its operation. -/
theorem opcodeTableWordsDecode : Obligations.OpcodeTableWordsDecode := by
  unfold Obligations.OpcodeTableWordsDecode
  simp only [decode_eq_ok_iff]
  decide

end Sys2Proof.Machine
end

section
/-! PROOFS. spec/10_state.md and spec/60_exceptions.md: the frame of an operation (R20, R45), the requester's contract and
the status (R131, R155), and the ranges of the response ports (R25, R56, R123, R133). -/

namespace Sys2Proof.Machine

/-- Settles O7: every operation answers its result with `answerWith`, which sets no field but the response. -/
theorem operationsChangeOnlyTheResponse : Obligations.OperationsChangeOnlyTheResponse := fun i s =>
  ⟨_, exec_eq_answerWith_result i s, rfl, rfl, rfl, rfl, rfl, rfl, rfl⟩

/-! ## The requester's contract (R155) -/

theorem clean_iff {r : Response} : r.clean = true ↔ r.st = 0 := beq_iff_eq

section
variable {q : Request} {i : Instr}

/-- The one status of a defined operation is that of `ADD128` with a carry in above 1 (R132). -/
theorem result_st_eq_zero_iff : (result q i).st = 0 ↔ (i = .add128 → q.ci.toNat ≤ 1) := by
  by_cases hi : i = .add128
  · subst hi
    exact (addStatus_eq_zero_iff q.ci).trans ⟨fun h _ => h, fun h => h rfl⟩
  · exact iff_of_true (result_st_of_ne_add128 q hi) fun h => absurd h hi

theorem honoursContract_of_encode (h : q.op = encode i) :
    q.honoursContract = true ↔ (i = .add128 → q.ci.toNat ≤ 1) := by
  have hclear : (!carryInDirty q.ci) = true ↔ q.ci.toNat ≤ 1 := by
    rw [Bool.not_eq_true', ← Bool.not_eq_true, carryInDirty_iff]
    omega
  rw [Request.honoursContract, decode_eq_ok_iff.mpr h, Bool.or_eq_true, bne_iff_ne, hclear, imp_iff_not_or]

theorem honoursContract_of_reserved (h : ∀ i, q.op ≠ encode i) : q.honoursContract = false := by
  rw [Request.honoursContract, decode_eq_reserved_iff.mpr h]

end

/-- Settles O12: a reserved opcode breaks the contract and has ST.ILL, and for a defined operation both conditions are
that of the carry in of `ADD128`. -/
theorem contractKeptIffNoStatus : Obligations.ContractKeptIffNoStatus := by
  intro q
  rw [clean_iff]
  by_cases hop : ∃ i, q.op = encode i
  · obtain ⟨i, hi⟩ := hop
    rw [honoursContract_of_encode hi, respond_of_encode hi, result_st_eq_zero_iff]
  · rw [not_exists] at hop
    rw [honoursContract_of_reserved hop, respond_of_reserved hop]
    decide

/-! ## Legal responses (R25, R56, R123, R133) -/

/-- A response of a defined operation that carries no text is legal where its status, carry, count and flags are. -/
theorem Drives.legal_of_no_text {ps : List ResultPort} {r : Response} (h : Drives ps r) (hp : .rs ∉ ps)
    (hst : r.st = 0b00#2 ∨ r.st = 0b10#2) (hrc : r.rc.toNat ≤ 1) (hrn : r.rn.toNat ≤ 128)
    (hrf : r.rf = 0b000#3 ∨ r.rf = 0b001#3 ∨ r.rf = 0b010#3 ∨ r.rf = 0b100#3) : r.legal := by
  obtain ⟨hlen, hrs⟩ := h.text_eq_zero hp
  refine ⟨hst.imp_right .inr, hrc, hrn, hrf, by simp [hlen], fun k hk => ?_,
    fun hill => absurd hill (Bool.eq_false_iff.mp h.ill_eq_false)⟩
  simp [hrs k hk, hlen]

theorem driveRV_legal (v : Uint128) : (driveRV v).legal :=
  (Drives.value v).legal_of_no_text (by decide) (.inl rfl) (Nat.zero_le 1) (Nat.zero_le 128) (.inl rfl)

theorem driveRN_legal {n : Nat} (hn : n ≤ 128) : (driveRN n).legal :=
  (Drives.count n).legal_of_no_text (by decide) (.inl rfl) (Nat.zero_le 1) ((Nat.mod_le n _).trans hn) (.inl rfl)

theorem driveRF_legal {f : BitVec 3} (hf : f = 0b000#3 ∨ f = 0b001#3 ∨ f = 0b010#3 ∨ f = 0b100#3) :
    (driveRF f).legal :=
  (Drives.flags f).legal_of_no_text (by decide) (.inl rfl) (Nat.zero_le 1) (Nat.zero_le 128) hf

theorem addStatus_cases (ci : Uint128) : addStatus ci = 0b00#2 ∨ addStatus ci = 0b10#2 := by
  rw [addStatus_eq_ite]
  split_ifs
  · exact .inl rfl
  · exact .inr rfl

theorem driveSum_legal (ci v : Uint128) {carry : Nat} (hcarry : carry ≤ 1) :
    (driveSum (addStatus ci) v carry).legal :=
  (Drives.sum ci v carry).legal_of_no_text (by decide) (addStatus_cases ci) ((Nat.mod_le carry _).trans hcarry)
    (Nat.zero_le 128) (.inl rfl)

/-- The text of a formatting operation fits RS, and none of its characters is 0x00 (R111, R123). -/
theorem driveText_legal {i : Instr} {b : Nat} {u : Bool} (hf : (i, b, u) ∈ formats) (x : Uint128) :
    (driveText (fmtText b (letterA u) x)).legal := by
  have hlen := fmtText_length_le b (letterA u) x
  refine ⟨.inl rfl, Nat.zero_le 1, Nat.zero_le 128, .inl rfl, ?_, fun k hk => driveText_rs_eq_zero_iff hf x hk,
    fun hill => absurd hill (Bool.eq_false_iff.mp (Drives.text _).ill_eq_false)⟩
  rwa [driveText_rslen_toNat hlen]

theorem reservedResponse_legal : reservedResponse.legal :=
  ⟨.inr (.inl rfl), Nat.zero_le 1, Nat.zero_le 128, .inl rfl, Nat.zero_le 128,
    fun k hk => iff_of_true (Response.zero_rs_getElem k hk) (Nat.zero_le k), fun _ => rfl⟩

theorem result_legal (q : Request) (i : Instr) : (result q i).legal := by
  cases i with
  | zero | max | rev | revb | add | incr | decr => exact driveRV_legal _
  | eq => exact driveRF_legal ((eqFlags_cases q.x q.y).imp_right .inl)
  | cmp => exact driveRF_legal (.inr (cmpFlags_cases q.x q.y))
  | len => exact driveRN_legal (bitLength_le q.x)
  | clz => exact driveRN_legal (leadingZeros_le q.x)
  | ctz => exact driveRN_legal (trailingZeros_le q.x)
  | popcnt => exact driveRN_legal (onesCount_le q.x)
  | add128 => exact driveSum_legal q.ci _ (addCarry_carry_le q.x q.y _ (carryIn_le_one q.ci))
  | fmtBin => exact driveText_legal fmtBin_mem_formats q.x
  | fmtOct => exact driveText_legal fmtOct_mem_formats q.x
  | fmtDec => exact driveText_legal fmtDec_mem_formats q.x
  | fmtHexl => exact driveText_legal fmtHexl_mem_formats q.x
  | fmtHexu => exact driveText_legal fmtHexu_mem_formats q.x
  | fmtStr => exact driveText_legal fmtStr_mem_formats q.x

/-- Settles O58: the result of each operation is within the ranges of its ports, and so is the report of a reserved
opcode. -/
theorem everyResponseIsLegal : Obligations.EveryResponseIsLegal := by
  intro q
  by_cases hop : ∃ i, q.op = encode i
  · obtain ⟨i, hi⟩ := hop
    rw [respond_of_encode hi]
    exact result_legal q i
  · rw [respond_of_reserved (not_exists.mp hop)]
    exact reservedResponse_legal

end Sys2Proof.Machine
end

section
/-! PROOFS. spec/70_reset_and_hazards.md: what one cycle accepts and presents (R152), that nothing is remembered of earlier
responses (R47, R131), and the invariant of the handshake (R45, R150, R156, R157). -/

namespace Sys2Proof.Machine

/-! ## One cycle (R152) -/

section
variable {s u : State}

/-- The way a cycle without reset goes is fixed by the queue: it is the step. -/
theorem Cycle.step_eq (h : Cycle s u) (hrst : s.input.rst = false) : step s = .next u := by
  cases h with
  | wait hdue =>
    obtain ⟨hreset, _⟩ | ⟨_, _, hwait⟩ | ⟨_, p, rest, hpending, hnow, _⟩ := step_cases s
    · simp [hrst] at hreset
    · exact hwait
    · exact absurd hnow (hdue p rest hpending)
  | answer p rest hpending hdue =>
    exact (step_of_due hrst hpending hdue).trans (answerIsAFunctionOfTheRequest _)

/-- The request answered, if any, is the sampled one. -/
theorem Cycle.conserves_req (h : Cycle s u) :
    s.pending.map InFlight.req ++ s.acceptedNow = (if u.rspValid then [u.req] else []) ++ u.pending.map InFlight.req := by
  rw [← acceptEdge_pending_req]
  cases h with
  | wait => simp [State.rspValid]
  | answer p rest hpending => simp [State.rspValid, hpending]

theorem Cycle.rsp_eq_respond (h : Cycle s u) {r : Response} (hr : u.rsp = some r) : r = respond u.req := by
  cases h with
  | wait => cases hr
  | answer => exact (Option.some.inj hr).symm

/-- Without reset the block is ready where it is willing and fewer than DEPTH requests are in flight. -/
theorem accepts_of_no_rst (hrst : s.input.rst = false) :
    s.accepts = (s.input.reqValid && s.isWilling && decide (s.pending.length < s.depth)) := by
  simp [State.accepts, State.reqReady, hrst, Bool.and_assoc]

end

/-- Settles O52: the accepted request joins the queue as the youngest, and only the oldest leaves it, answered. -/
theorem oneCycleAcceptsAndPresents : Obligations.OneCycleAcceptsAndPresents := by
  intro s hrst
  obtain ⟨t, hstep, hcycle⟩ := exists_cycle hrst
  rw [← accepts_of_no_rst hrst]
  exact ⟨t, hstep, hcycle.pins_eq, hcycle.willing_eq, hcycle.lat_eq, hcycle.depthPred_eq, hcycle.conserves_req,
    fun _ => hcycle.rsp_eq_respond⟩

/-! ## Earlier responses (R47, R131) -/

/-- What an edge accepts and keeps does not depend on the last sampled request or the response presented. -/
theorem acceptEdge_pending_of_earlier (s : State) (q : Request) (r : Option Response) :
    ({ s with req := q, rsp := r } : State).acceptEdge.pending = s.acceptEdge.pending := by
  rw [State.acceptEdge_pending, State.acceptEdge_pending]
  rfl

/-- Settles O56: the queue after the acceptance is the same, and it alone says whether and what the step answers. -/
theorem earlierResponsesHaveNoEffect : Obligations.EarlierResponsesHaveNoEffect := by
  intro s q r
  have hqueue := acceptEdge_pending_of_earlier s q r
  cases hrst : s.input.rst with
  | true => exact ⟨_, _, step_of_rst hrst, step_of_rst hrst, rfl, rfl, rfl, rfl, rfl, rfl, nofun⟩
  | false =>
    obtain ⟨t, hstep, hcycle⟩ := exists_cycle hrst
    refine ⟨t, ?_⟩
    cases hcycle with
    | wait hdue =>
      have hother := Cycle.wait (hqueue ▸ hdue)
      exact ⟨_, hstep, hother.step_eq hrst, rfl, by simp [hqueue], by simp, by simp, by simp, by simp, nofun⟩
    | answer p rest hpending hdue =>
      have hother := Cycle.answer p rest (hqueue.trans hpending) hdue
      exact ⟨_, hstep, hother.step_eq hrst, rfl, rfl, by simp, by simp, by simp, by simp, fun _ => rfl⟩

/-! ## The invariant (R45, R150, R156, R157) -/

/-- Settles O57: the reset state has an empty queue and no response. -/
theorem resetMeetsTheInvariant : Obligations.ResetMeetsTheInvariant :=
  ⟨rfl, rfl, Nat.zero_le _, nofun, nofun⟩

section
variable {s : State}

theorem acceptEdge_left_le (hleft : ∀ p ∈ s.pending, p.left ≤ s.latOf p.req) :
    ∀ p ∈ s.acceptEdge.pending, p.left ≤ s.latOf p.req := by
  rw [State.acceptEdge_pending]
  split_ifs
  · rw [List.forall_mem_append]
    exact ⟨hleft, List.forall_mem_singleton.mpr le_rfl⟩
  · exact hleft

/-- A cycle without reset keeps the invariant, whatever was presented before it. -/
theorem Cycle.inv {u : State} (h : Cycle s u) (hs : s.Inv) : u.Inv := by
  obtain ⟨hdepth, hleft, _⟩ := hs
  refine ⟨h.pending_length_le hdepth, fun p hp => ?_, fun r hr => ?_⟩
  · obtain ⟨q, hq, rfl⟩ := h.mem_pending hp
    rw [h.latOf_eq]
    exact (Nat.sub_le _ _).trans (acceptEdge_left_le hleft q hq)
  · have hrespond := h.rsp_eq_respond hr
    exact ⟨hrespond, hrespond ▸ everyResponseIsLegal u.req⟩

/-- A reset edge leaves nothing that the invariant could fail for (R150). -/
theorem resetEdge_inv : s.resetEdge.Inv := ⟨Nat.zero_le _, nofun, nofun⟩

end

/-- Settles O59: a reset edge clears the queue and the response; any other step is one cycle, which ages the queue by
one and presents `respond` of the request that it answers. -/
theorem everyStepKeepsTheInvariant : Obligations.EveryStepKeepsTheInvariant := by
  intro s t hs hstep
  cases hrst : s.input.rst with
  | true =>
    cases (step_of_rst hrst).symm.trans hstep
    exact resetEdge_inv
  | false =>
    obtain ⟨u, hnext, hcycle⟩ := exists_cycle hrst
    cases hnext.symm.trans hstep
    exact hcycle.inv hs

end Sys2Proof.Machine
end
